-- ==== Sys2Proof/Word.lean ====
section
/-! DEFINITION. The bit-vector types of the machine: bytes, words, vector registers and their numbers, and
condition-register field 6. -/

namespace Sys2Proof

/-- One byte of instruction memory (spec/20_memory.md R21). -/
abbrev Byte := BitVec 8

/-- A 32-bit word: an instruction word (spec/30_encoding.md R30) or one lane of a vector register
(spec/10_state.md R12). -/
abbrev Word := BitVec 32

/-- The contents of one vector register: 128 bits (spec/10_state.md R11). -/
abbrev Vec := BitVec 128

/-- A vector register number: 7 bits, 0 to 127 (spec/10_state.md R11, spec/30_encoding.md R34).
It stays a bit vector because the spec's encoder and decoder cut it into pieces and shift them. -/
abbrev VReg := BitVec 7

/-- Condition-register field 6: the four bits `lt || gt || eq || so`, `lt` the most significant
(spec/10_state.md R14, spec/00_scope.md R7). -/
abbrev Cr6 := BitVec 4

end Sys2Proof
end

