-- ==== Sys2Proof/Config.lean ====
section
/-! DEFINITION. The implementation parameters of spec/00_scope.md R4 that the spec leaves as named
parameters of the model, and their values at reset. The spec leaves no VALUE open inside an
instruction (spec/93_implementation_defined.md, "The model needs no draw"), so there is no free value
and no constant without a body here. -/

namespace Sys2Proof

/-- `VX128R_RC_BIT`: the place of the record bit in the VX128_R form, in the source's numbering
(spec/30_encoding.md R32 and its warning, spec/92_eei_decisions.md D10). The spec names exactly two
values: 27, which its source's table gives and which is the default, and 25, the alternative. -/
inductive RcBit where
  | bit27
  | bit25
  deriving DecidableEq, Repr

/-- The parameters the model takes as an argument (spec/00_scope.md R4). `exec` and `step` take only
an instruction and a state, so the state carries them (log entry 2); no step changes them. -/
structure Params where
  /-- `PC_WIDTH`: program-counter arithmetic is modulo `2 ^ pcWidth` (spec/10_state.md R13). -/
  pcWidth : Nat
  /-- `VX128R_RC_BIT`. -/
  rcBit : RcBit
  deriving DecidableEq, Repr

/-- The spec's one constraint on a parameter: `PC_WIDTH` is at least 3 (spec/00_scope.md R4). -/
def Params.wf (p : Params) : Bool := decide (3 ≤ p.pcWidth)

/-- The parameters at reset. `VX128R_RC_BIT` is 27, the spec's default.
DESIGN CHOICE (log entry 2): the spec leaves `PC_WIDTH` OPEN; 64 is this model's value at reset, and no
statement rests on it. -/
def Params.default : Params := { pcWidth := 64, rcBit := .bit27 }

end Sys2Proof
end

