-- ==== Sys2Proof/Syntax.lean ====
section
/-! DEFINITION. The instructions: one constructor for each row of spec/opcode_table.json. -/

namespace Sys2Proof

/-- The four in-scope instructions (spec/00_scope.md R2). Operands stand in assembly order:
destination `VD`, source A `VA`, source B `VB` (spec/30_encoding.md R41). A constructor ending in
`Rc` is the record form, spelled with a trailing `.` in assembly. -/
inductive Instr where
  /-- `vcmpgefp VD, VA, VB`: form VC, `Rc = 0` (spec/40_vector_compare.md R56). -/
  | vcmpgefp (vd va vb : VReg)
  /-- `vcmpgefp. VD, VA, VB`: form VC, `Rc = 1` (R57). -/
  | vcmpgefpRc (vd va vb : VReg)
  /-- `vcmpgefp128 VD, VA, VB`: form VX128_R, `Rc = 0` (R58). -/
  | vcmpgefp128 (vd va vb : VReg)
  /-- `vcmpgefp128. VD, VA, VB`: form VX128_R, `Rc = 1` (R59). -/
  | vcmpgefp128Rc (vd va vb : VReg)
  deriving DecidableEq, Repr

/-- The destination register number `VD`. -/
def Instr.dest : Instr → VReg
  | .vcmpgefp vd _ _ => vd
  | .vcmpgefpRc vd _ _ => vd
  | .vcmpgefp128 vd _ _ => vd
  | .vcmpgefp128Rc vd _ _ => vd

/-- The source A register number `VA`. -/
def Instr.srcA : Instr → VReg
  | .vcmpgefp _ va _ => va
  | .vcmpgefpRc _ va _ => va
  | .vcmpgefp128 _ va _ => va
  | .vcmpgefp128Rc _ va _ => va

/-- The source B register number `VB`. -/
def Instr.srcB : Instr → VReg
  | .vcmpgefp _ _ vb => vb
  | .vcmpgefpRc _ _ vb => vb
  | .vcmpgefp128 _ _ vb => vb
  | .vcmpgefp128Rc _ _ vb => vb

/-- `Rc`: whether the instruction is a record form, which also writes `CR6`
(spec/10_state.md R14). -/
def Instr.isRecord : Instr → Bool
  | .vcmpgefp _ _ _ => false
  | .vcmpgefpRc _ _ _ => true
  | .vcmpgefp128 _ _ _ => false
  | .vcmpgefp128Rc _ _ _ => true

end Sys2Proof
end

