-- ==== Sys2Proof/WellFormed.lean ====
section
/-! DEFINITION. Which instructions have an encoding: the VC form's register numbers are 5 bits wide,
the VX128_R form's are 7 (spec/30_encoding.md R33, R34). -/

namespace Sys2Proof

/-- A register number the VC form can hold: 0 to 31 (spec/30_encoding.md R33). -/
def VReg.fitsVc (r : VReg) : Bool := decide (r.toNat < 32)

/-- Well-formed instructions. In the VC form each of the three register numbers is 0 to 31; in the
VX128_R form every register number is legal in every position (spec/30_encoding.md R34, R40). -/
def Instr.wf : Instr → Bool
  | .vcmpgefp vd va vb => VReg.fitsVc vd && VReg.fitsVc va && VReg.fitsVc vb
  | .vcmpgefpRc vd va vb => VReg.fitsVc vd && VReg.fitsVc va && VReg.fitsVc vb
  | .vcmpgefp128 _ _ _ => true
  | .vcmpgefp128Rc _ _ _ => true

end Sys2Proof
end

