-- ==== Sys2Proof/Decode.lean ====
section
/-! DEFINITION. The decoder, total on every word and every list of bytes, and the encoder, both written
from the format tables of spec/30_encoding.md. Field places are in the source's numbering: bit 0 is
the most significant bit (spec/00_scope.md R5). -/

namespace Sys2Proof

/-- What a word decodes to (spec/30_encoding.md R38): an instruction, or `NotInScope(w)`, which names
the word. A word outside the two patterns is neither illegal nor a no-op: the spec says nothing of it
(R39). -/
inductive Decoded where
  | instr (i : Instr)
  | notInScope (w : Word)
  deriving DecidableEq, Repr

/-- What a list of bytes decodes to: the decoding of its first word with the bytes after it, or
`truncated` with the number of bytes there are when that is fewer than four. -/
inductive DecodedBytes where
  | word (d : Decoded) (rest : List Byte)
  | truncated (count : Nat)
  deriving DecidableEq, Repr

/-- `w{a..b}`, the field "bits a–b" of a word in the source's numbering, where bit 0 is the most
significant bit: `(w >> (31-b)) & (2^(b-a+1) - 1)` (spec/00_scope.md R5, R6). -/
def msbField (w : Word) (a b : Nat) : BitVec (b - a + 1) :=
  w.extractLsb' (31 - b) (b - a + 1)

/-! ### Form VC: `OPCD` 0–5, `VRT` 6–10, `VRA` 11–15, `VRB` 16–20, `Rc` 21, `XO` 22–31 (R31) -/

/-- Mask of the VC form's fixed fields `OPCD` and `XO`, with `Rc` left free (R35). -/
def vcMask : Word := 0xFC0003FF#32

/-- `OPCD = 4`, `XO = 454` (R35). -/
def vcMatch : Word := 0x100001C6#32

/-- `VD`, from `VRT`: a 5-bit number, so 0 to 31 (R33). -/
def vcVD (w : Word) : VReg := (msbField w 6 10).setWidth 7

/-- `VA`, from `VRA` (R33). -/
def vcVA (w : Word) : VReg := (msbField w 11 15).setWidth 7

/-- `VB`, from `VRB` (R33). -/
def vcVB (w : Word) : VReg := (msbField w 16 20).setWidth 7

/-- `Rc` of the VC form (R31). -/
def vcRc (w : Word) : BitVec 1 := msbField w 21 21

/-! ### Form VX128_R: `OPCD` 0–5, `VD128l` 6–10, `VA128l` 11–15, `VB128l` 16–20, `VA128H` 21,
`XO` 22–25, `VA128h` 26, `Rc` 27, `VD128h` 28–29, `VB128h` 30–31 (R32) -/

/-- Mask of the VX128_R form's fixed fields with `Rc` left free: `OPCD` and `XO` (bits 22–25) when
`VX128R_RC_BIT` is 27; when it is 25, the extended opcode is bits 22–24 and bit 27
(R36 and the warning in R32). -/
def vx128Mask : RcBit → Word
  | .bit27 => 0xFC0003C0#32
  | .bit25 => 0xFC000390#32

/-- `OPCD = 6` and the extended opcode, the same word for either place of `Rc` (R36, R37). -/
def vx128Match : Word := 0x18000080#32

/-- `VD = (VD128h << 5) | VD128l` (R34). -/
def vx128VD (w : Word) : VReg := (msbField w 28 29 ++ msbField w 6 10 : BitVec (2 + 5))

/-- `VA = (VA128H << 6) | (VA128h << 5) | VA128l` (R34). -/
def vx128VA (w : Word) : VReg :=
  (msbField w 21 21 ++ msbField w 26 26 ++ msbField w 11 15 : BitVec (1 + 1 + 5))

/-- `VB = (VB128h << 5) | VB128l` (R34). -/
def vx128VB (w : Word) : VReg := (msbField w 30 31 ++ msbField w 16 20 : BitVec (2 + 5))

/-- `Rc` of the VX128_R form, at the bit `VX128R_RC_BIT` (R32, spec/92_eei_decisions.md D10). -/
def vx128Rc : RcBit → Word → BitVec 1
  | .bit27, w => msbField w 27 27
  | .bit25, w => msbField w 25 25

/-! ### Decode (R38) -/

/-- The decoder of R38, total on 32-bit words. -/
def decodeWord (rc : RcBit) (w : Word) : Decoded :=
  if w &&& vcMask = vcMatch then
    if vcRc w = 1#1 then .instr (.vcmpgefpRc (vcVD w) (vcVA w) (vcVB w))
    else .instr (.vcmpgefp (vcVD w) (vcVA w) (vcVB w))
  else if w &&& vx128Mask rc = vx128Match then
    if vx128Rc rc w = 1#1 then .instr (.vcmpgefp128Rc (vx128VD w) (vx128VA w) (vx128VB w))
    else .instr (.vcmpgefp128 (vx128VD w) (vx128VA w) (vx128VB w))
  else .notInScope w

/-- The word whose bytes, lowest address first, are the four given: big-endian, so the first byte is
word bits 0–7, the most significant (spec/20_memory.md R21; DESIGN CHOICE of the spec, D4;
log entry 4). -/
def wordOfBytes (b0 b1 b2 b3 : Byte) : Word := b0 ++ b1 ++ b2 ++ b3

/-- The byte of a word that stands `k` addresses above its first, `k` in 0 to 3 (R21). -/
def byteOfWord (w : Word) (k : Nat) : Byte := w.extractLsb' (8 * (3 - k)) 8

/-- The four bytes of a word in address order. -/
def bytesOfWord (w : Word) : List Byte :=
  [byteOfWord w 0, byteOfWord w 1, byteOfWord w 2, byteOfWord w 3]

/-- The decoder on bytes, total on every list: every instruction is four bytes (R30). -/
def decodeBytes (rc : RcBit) : List Byte → DecodedBytes
  | b0 :: b1 :: b2 :: b3 :: rest => .word (decodeWord rc (wordOfBytes b0 b1 b2 b3)) rest
  | [] => .truncated 0
  | [_] => .truncated 1
  | [_, _] => .truncated 2
  | [_, _, _] => .truncated 3

/-- The word the host names by `nbits` bits `w`, bit 0 the least significant; the bits above `nbits`
are 0. -/
def tableWord (nbits w : Nat) : Word := BitVec.ofNat 32 (w % 2 ^ nbits)

/-- The instruction the decoder reads from the bytes of an opcode-table word, as the hardware stores
them, with `VX128R_RC_BIT` at its default, which spec/opcode_table.json assumes. -/
def decodeTableWord (nbits w : Nat) : Option Instr :=
  match decodeBytes Params.default.rcBit (bytesOfWord (tableWord nbits w)) with
  | .word (.instr i) _ => some i
  | .word (.notInScope _) _ => none
  | .truncated _ => none

/-! ### Encode, the inverse (R43), written field by field from the format tables -/

/-- Number bits 4..0 of a register number: `VRT`, `VD128l` and the like. -/
def VReg.low5 (r : VReg) : BitVec 5 := r.extractLsb' 0 5

/-- Number bits 6..5 of a register number: `VD128h`, `VB128h`. -/
def VReg.high2 (r : VReg) : BitVec 2 := r.extractLsb' 5 2

/-- Number bit 5 of a register number: `VA128h`. -/
def VReg.bit5 (r : VReg) : BitVec 1 := r.extractLsb' 5 1

/-- Number bit 6 of a register number: `VA128H`. -/
def VReg.bit6 (r : VReg) : BitVec 1 := r.extractLsb' 6 1

/-- A word of form VC (R31): `OPCD VRT VRA VRB Rc XO`. -/
def encodeVc (vd va vb : VReg) (rc : BitVec 1) : Word :=
  4#6 ++ VReg.low5 vd ++ VReg.low5 va ++ VReg.low5 vb ++ rc ++ 454#10

/-- A word of form VX128_R (R32): `OPCD VD128l VA128l VB128l VA128H XO VA128h Rc VD128h VB128h`; with
`VX128R_RC_BIT` 25, `Rc` stands at bit 25 and the extended opcode is bits 22–24 and bit 27. -/
def encodeVx128 : RcBit → VReg → VReg → VReg → BitVec 1 → Word
  | .bit27, vd, va, vb, rc =>
    6#6 ++ VReg.low5 vd ++ VReg.low5 va ++ VReg.low5 vb ++ VReg.bit6 va ++ 2#4 ++ VReg.bit5 va ++ rc
      ++ VReg.high2 vd ++ VReg.high2 vb
  | .bit25, vd, va, vb, rc =>
    6#6 ++ VReg.low5 vd ++ VReg.low5 va ++ VReg.low5 vb ++ VReg.bit6 va ++ 1#3 ++ rc ++ VReg.bit5 va ++ 0#1
      ++ VReg.high2 vd ++ VReg.high2 vb

/-- The word of a well-formed instruction (R43). Of an instruction that is not well-formed it keeps
only the low five bits of each register number. -/
def encode (rc : RcBit) : Instr → Word
  | .vcmpgefp vd va vb => encodeVc vd va vb 0#1
  | .vcmpgefpRc vd va vb => encodeVc vd va vb 1#1
  | .vcmpgefp128 vd va vb => encodeVx128 rc vd va vb 0#1
  | .vcmpgefp128Rc vd va vb => encodeVx128 rc vd va vb 1#1

/-! ### The opcode map, one mask and match for each mnemonic (R35, R36) -/

/-- The mask of the fixed bits of an instruction's words, `Rc` among them. -/
def Instr.opcodeMask : Instr → Word
  | .vcmpgefp _ _ _ => 0xFC0007FF#32
  | .vcmpgefpRc _ _ _ => 0xFC0007FF#32
  | .vcmpgefp128 _ _ _ => 0xFC0003D0#32
  | .vcmpgefp128Rc _ _ _ => 0xFC0003D0#32

/-- The value of the fixed bits of an instruction's words. -/
def Instr.opcodeMatch (rc : RcBit) : Instr → Word
  | .vcmpgefp _ _ _ => 0x100001C6#32
  | .vcmpgefpRc _ _ _ => 0x100005C6#32
  | .vcmpgefp128 _ _ _ => 0x18000080#32
  | .vcmpgefp128Rc _ _ _ =>
    match rc with
    | .bit27 => 0x18000090#32
    | .bit25 => 0x180000C0#32

end Sys2Proof
end

