-- ==== Sys2Proof/Machine/State.lean ====
section
/-! DEFINITION. The machine's state as plain data, the reasons a step can stop, and the state after
reset. INVENTORY.md lists every field with the rule of spec/ that names it. -/

namespace Sys2Proof.Machine

/-- Instruction memory: address and byte pairs, addresses strictly rising (`Memory.wf`,
Machine/Ops.lean). It is the only memory of the spec (spec/20_memory.md R20, R21); an address that is
not listed holds no byte. -/
abbrev Memory := List Host.Cell

/-- The named bits of `VSCR`. The spec gives neither its width nor the places of its bits
(spec/91_not_in_source.md N7), so the two bits stand under their names. -/
structure Vscr where
  /-- `VSCR.NJ`: when 1, denormal inputs are read as zero (spec/10_state.md R15). -/
  nj : Bool
  /-- `VSCR.SAT`: neither read nor written by any in-scope instruction (R16). -/
  sat : Bool
  deriving DecidableEq, Repr

/-- Where `PROGRAM` stands: `PROGRAM.base` and `len(PROGRAM.words)`; the words themselves are the
bytes of `State.mem` (spec/20_memory.md R23, log entry 3). -/
structure TextRange where
  base : Nat
  len : Nat
  deriving DecidableEq, Repr

/-- The launch premises of spec/70_reset_and_hazards.md R81 that no other field expresses. A run
outside them is refused (spec/93_implementation_defined.md U10, log entry 7). -/
structure Premises where
  /-- `VMX_ENABLED`: the vector unit is available to the running program
  (spec/60_exceptions.md R71). -/
  vmxEnabled : Bool
  /-- `NO_ASYNC`: no interrupt is taken during the run, or every one taken is transparent
  (spec/60_exceptions.md R72). -/
  noAsync : Bool
  deriving DecidableEq, Repr

/-- The state: the tuple of spec/10_state.md R10 (`pc`, `VR`, `CR6`, `VSCR`), the instruction memory
with the place of the program in it, and the run's parameters and premises, which no step changes. -/
structure State where
  /-- The parameters of spec/00_scope.md R4. -/
  params : Params
  premises : Premises
  /-- Where `PROGRAM` stands. -/
  text : TextRange
  /-- The bytes instruction fetch reads. -/
  mem : Memory
  /-- `pc`: the byte address of the instruction being executed, below `2 ^ PC_WIDTH`
  (spec/10_state.md R13; a number because the width is a parameter, log entry 2). -/
  pc : Nat
  /-- `VR[0]` to `VR[127]` (R11). -/
  vr : Vector Vec 128
  /-- `CR6` (R14). -/
  cr6 : Cr6
  /-- `VSCR` (R15, R16). -/
  vscr : Vscr
  deriving DecidableEq, Repr

/-- Why a step stops without a refusal. No instruction's meaning raises any of these: the in-scope
instructions raise no exception (spec/60_exceptions.md R70). All are raised by instruction fetch
(`State.fetch`, Machine/Ops.lean) and all are safe: the spec gives the state no step. -/
inductive Fault where
  /-- Stuck: `pc` is not a multiple of 4 (spec/20_memory.md R22, U2). Raised by fetch; safe. -/
  | misalignedPc (pc : Nat)
  /-- Not a fault of the hardware: the run is over, `pc` being the address just past the program
  (spec/70_reset_and_hazards.md R85). Raised by fetch; safe, as it claims nothing of what follows. -/
  | endOfRun (pc : Nat)
  /-- Stuck: `pc` is no address of a program word and not its end (spec/20_memory.md R23, U3).
  Raised by fetch; safe. -/
  | outsideProgram (pc : Nat)
  /-- Stuck: `pc` is the address of a program word some byte of which memory does not hold, so the
  premise `TEXT_LOADED` (spec/70_reset_and_hazards.md R81) fails and `Fetch` is undefined.
  Raised by fetch; safe. -/
  | textNotLoaded (pc : Nat)
  deriving DecidableEq, Repr

/-- Why the model has no meaning for a step. A refusal says nothing of the hardware
(spec/00_scope.md R7, `refuse(reason)`). -/
inductive Refusal where
  /-- An instruction that has no meaning in this model yet, by its mnemonic. Raised by `exec` only;
  safe. No arm of `exec` raises it: every instruction has its meaning. -/
  | notModelled (mnemonic : String)
  /-- The word `w` at `pc` matches no in-scope pattern: `refuse("not in scope", pc, w)`
  (spec/30_encoding.md R39, spec/70_reset_and_hazards.md R84). Raised by `step`; safe. -/
  | notInScope (pc : Nat) (w : Word)
  /-- The run is outside the premise `VMX_ENABLED` (spec/93_implementation_defined.md U10). Raised by
  `step`; safe. -/
  | vectorUnitUnavailable
  /-- The run is outside the premise `NO_ASYNC` (U10). Raised by `step`; safe. -/
  | asyncEvent
  deriving DecidableEq, Repr

/-- The state after reset. The spec describes no reset (spec/70_reset_and_hazards.md R80); it gives one
value, `VSCR.NJ = 1` (spec/10_state.md R18). No program is loaded: memory lists nothing, the program is
empty, and `pc` is its base (R18), so the run is over before it begins until a program is placed from
outside (log entry 5).
DESIGN CHOICE (log entry 1): `VR`, `CR6` and `VSCR.SAT` are zero and the base is 0. The spec says these are ANY
value; no statement rests on the zeros. -/
def State.reset : State where
  params := Params.default
  premises := { vmxEnabled := true, noAsync := true }
  text := { base := 0, len := 0 }
  mem := []
  pc := 0
  vr := Vector.replicate 128 0#128
  cr6 := 0#4
  vscr := { nj := true, sat := false }

end Sys2Proof.Machine
end

