-- ==== Sys2Proof/Machine/Ops.lean ====
section
/-! DEFINITION. The named operations over registers and instruction memory, through which every read
and write of the state goes, and instruction fetch.

TAKING AN EXCEPTION AND RETURNING FROM ONE: the spec describes neither. The in-scope instructions raise
no exception (spec/60_exceptions.md R70), there is no trap entry and no trap return, no state saved on a
trap, no vector and no mode (R74, R75); what would need one is refused, never given a guessed
behaviour. So there is no such operation here. -/

namespace Sys2Proof.Machine

/-! ### Registers -/

/-- The length of every instruction in bytes: each is one 32-bit word (spec/30_encoding.md R30), and
each advances the program counter by this much (spec/10_state.md R13). -/
def instrBytes : Nat := 4

/-- `VR[n]`: read of vector register `n`. No register is hard-wired (spec/10_state.md R11). -/
def State.readVr (s : State) (n : VReg) : Vec := s.vr[n.toNat]'n.isLt

/-- `VR[n] <- v`: write of all 128 bits of vector register `n` (spec/10_state.md R11). -/
def State.writeVr (s : State) (n : VReg) (v : Vec) : State :=
  { s with vr := s.vr.set n.toNat v n.isLt }

/-- Write of condition-register field 6 (spec/10_state.md R14). -/
def State.writeCr6 (s : State) (c : Cr6) : State := { s with cr6 := c }

/-- `2 ^ PC_WIDTH`, the modulus of program-counter arithmetic (spec/10_state.md R13). -/
def State.pcModulus (s : State) : Nat := 2 ^ s.params.pcWidth

/-- `pc <- (pc + 4) mod 2^PC_WIDTH`, the end of every instruction (spec/10_state.md R13). -/
def State.advancePc (s : State) : State :=
  { s with pc := (s.pc + instrBytes) % s.pcModulus }

/-! ### Instruction memory -/

/-- What an address that memory does not list reads as: nothing, the address holds no byte
(spec/20_memory.md R23, `Fetch` is defined only inside the program; log entry 3). -/
def Memory.unlisted : Option Byte := none

/-- The byte at an address. -/
def Memory.read : Memory → Nat → Option Byte
  | [], _ => Memory.unlisted
  | (k, v) :: m, a => if k = a then some v else Memory.read m a

/-- Store a byte, keeping the addresses strictly rising. No byte equals what an unlisted address reads
as, so a store never removes an entry. -/
def Memory.write : Memory → Nat → Byte → Memory
  | [], a, v => [(a, v)]
  | (k, x) :: m, a, v =>
    if a < k then (a, v) :: (k, x) :: m
    else if a = k then (a, v) :: m
    else (k, x) :: Memory.write m a v

/-- The canonical form: addresses strictly rising, and no entry equal to what an unlisted address
reads as, so that equal memories are equal lists. -/
def Memory.wf (m : Memory) : Bool :=
  decide (m.Pairwise fun c d => c.1 < d.1) && m.all fun c => some c.2 != Memory.unlisted

/-- The word whose first byte is at `a`, big-endian; nothing when one of its four bytes is not there
(spec/20_memory.md R21). -/
def Memory.readWord (m : Memory) (a : Nat) : Option Word :=
  match Memory.read m a, Memory.read m (a + 1), Memory.read m (a + 2), Memory.read m (a + 3) with
  | some b0, some b1, some b2, some b3 => some (wordOfBytes b0 b1 b2 b3)
  | _, _, _, _ => none

/-- Store a word at `a`, big-endian. No instruction stores (spec/20_memory.md R20): only the loading of a
program from outside the machine does. -/
def Memory.writeWord (m : Memory) (a : Nat) (w : Word) : Memory :=
  Memory.write
    (Memory.write
      (Memory.write
        (Memory.write m a (byteOfWord w 0))
        (a + 1) (byteOfWord w 1))
      (a + 2) (byteOfWord w 2))
    (a + 3) (byteOfWord w 3)

/-- Store words one after another from `a` on, each address modulo `n`. -/
def Memory.loadWords (n : Nat) : Memory → Nat → List Word → Memory
  | m, _, [] => m
  | m, a, w :: ws => Memory.loadWords n (Memory.writeWord m (a % n) w) (a + instrBytes) ws

/-! ### The program and fetch -/

/-- The address of program word `k`: `base + 4k` (spec/20_memory.md R23), modulo `2^PC_WIDTH` as all
program-counter arithmetic is (spec/10_state.md R13; DEDUCED, log entry 6). -/
def State.textAddr (s : State) (k : Nat) : Nat := (s.text.base + instrBytes * k) % s.pcModulus

/-- The address just past the program, `base + 4*len(words)` (spec/70_reset_and_hazards.md R85). -/
def State.textEnd (s : State) : Nat := s.textAddr s.text.len

/-- Whether `a` is the address of a program word: `a` in `{base + 4k | 0 <= k < len(words)}`
(spec/70_reset_and_hazards.md R84). -/
def State.inText (s : State) (a : Nat) : Bool :=
  (List.range s.text.len).any fun k => a == s.textAddr k

/-- Instruction fetch at `pc`, with the checks of spec/70_reset_and_hazards.md R84 in its order:
alignment (R22), the end of the run (R85), being inside the program (R23); then `Fetch(pc)` (R21). -/
def State.fetch (s : State) : Except Fault Word :=
  if s.pc % instrBytes ≠ 0 then .error (.misalignedPc s.pc)
  else if s.pc = s.textEnd then .error (.endOfRun s.pc)
  else if s.inText s.pc = false then .error (.outsideProgram s.pc)
  else
    match Memory.readWord s.mem s.pc with
    | some w => .ok w
    | none => .error (.textNotLoaded s.pc)

/-! ### Loading a program from outside the machine -/

/-- Place one word where `step` fetches next. When `pc` is already the address of a program word, only
that word's bytes change; otherwise the program becomes the one word at `pc`. -/
def State.placeWord (s : State) (w : Word) : State :=
  if s.inText s.pc = true ∧ s.pc ≠ s.textEnd then
    { s with mem := Memory.writeWord s.mem s.pc w }
  else
    { s with
      text := { base := s.pc, len := 1 }
      mem := Memory.writeWord s.mem s.pc w }

/-- The launch state of spec/70_reset_and_hazards.md R80: a program already in place, `pc` its base, the
premises of R81 met, and `VR`, `CR6` and `VSCR` whatever the launch has (the default `NJ` is 1). -/
def State.launch (p : Params) (vr : Vector Vec 128) (cr6 : Cr6) (vscr : Vscr) (base : Nat)
    (words : List Word) : State where
  params := p
  premises := { vmxEnabled := true, noAsync := true }
  text := { base := base, len := words.length }
  mem := Memory.loadWords (2 ^ p.pcWidth) [] base words
  pc := base % 2 ^ p.pcWidth
  vr := vr
  cr6 := cr6
  vscr := vscr

end Sys2Proof.Machine
end

