-- ==== Sys2Proof/Machine/Operands.lean ====
section
/-! DEFINITION. The operand forms: a vector register as four word lanes, a lane as a 32-bit
floating-point number, and the input flush under `VSCR.NJ`. -/

namespace Sys2Proof.Machine

/-! ### Lanes (spec/10_state.md R12) -/

/-- `lane(v, i) = v[127-32i : 96-32i]`: lane 0 is the most significant word (R12; DESIGN CHOICE of the
spec, D8; log entry 8). -/
def lane (v : Vec) (i : Fin 4) : Word := v.extractLsb' (96 - 32 * i.val) 32

/-- `lanes(w0, w1, w2, w3) = w0 || w1 || w2 || w3` (spec/00_scope.md R7). -/
def lanes (w0 w1 w2 w3 : Word) : Vec := w0 ++ w1 ++ w2 ++ w3

/-! ### A lane as a floating-point number (spec/40_vector_compare.md R50; PRESUMED binary32, log entry 9) -/

/-- `sign(x) = x[31]`. -/
def f32Sign (x : Word) : BitVec 1 := x.extractLsb' 31 1

/-- `exp(x) = x[30:23]`. -/
def f32Exp (x : Word) : BitVec 8 := x.extractLsb' 23 8

/-- `frac(x) = x[22:0]`. -/
def f32Frac (x : Word) : BitVec 23 := x.extractLsb' 0 23

/-- `x[30:0]`, the magnitude bits. -/
def f32Mag (x : Word) : BitVec 31 := x.extractLsb' 0 31

/-- `isNaN(x) = (x[30:23] == 0xFF) and (x[22:0] != 0)`, quiet and signalling alike (R50). -/
def f32IsNaN (x : Word) : Bool := f32Exp x == 0xFF#8 && f32Frac x != 0#23

/-- `isDenormal(x) = (x[30:23] == 0) and (x[22:0] != 0)` (R50). -/
def f32IsDenormal (x : Word) : Bool := f32Exp x == 0#8 && f32Frac x != 0#23

/-- The classes of R50's table. -/
inductive F32Class where
  | zero
  | denormal
  | normal
  | infinity
  | nan
  deriving DecidableEq, Repr

/-- The class of a word (R50). -/
def f32Class (x : Word) : F32Class :=
  if f32Exp x = 0#8 then
    if f32Frac x = 0#23 then .zero else .denormal
  else if f32Exp x = 0xFF#8 then
    if f32Frac x = 0#23 then .infinity else .nan
  else .normal

/-- The value of a word (R50). A finite value is held exactly, as the whole number of units of
`2 ^ (-149)`, the smallest positive denormal. -/
inductive F32Value where
  | nan
  | negInf
  | finite (units : Int)
  | posInf
  deriving DecidableEq, Repr

/-- The size of a finite value in units of `2 ^ (-149)`: `frac` for a zero or a denormal,
`(2^23 + frac) * 2^(exp - 1)` for a normal number (R50's value column times `2 ^ 149`). -/
def f32Units (x : Word) : Nat :=
  if f32Exp x = 0#8 then (f32Frac x).toNat
  else (2 ^ 23 + (f32Frac x).toNat) * 2 ^ ((f32Exp x).toNat - 1)

/-- `(-1)^sign * n`, the sign rule of R50's value column. -/
def f32Signed (x : Word) (n : Nat) : Int := if f32Sign x = 0#1 then (n : Int) else -(n : Int)

/-- The value of a word (R50). -/
def f32Value (x : Word) : F32Value :=
  match f32Class x with
  | .nan => .nan
  | .infinity => if f32Sign x = 0#1 then .posInf else .negInf
  | .zero => .finite (f32Signed x (f32Units x))
  | .denormal => .finite (f32Signed x (f32Units x))
  | .normal => .finite (f32Signed x (f32Units x))

/-- Greater than or equal on values, with `-∞` and `+∞` the least and the greatest, and false when
either is not a number (R52, "in words"). -/
def F32Value.ge : F32Value → F32Value → Bool
  | .nan, _ => false
  | _, .nan => false
  | .posInf, _ => true
  | _, .negInf => true
  | .finite p, .finite q => decide (q ≤ p)
  | .finite _, .posInf => false
  | .negInf, .finite _ => false
  | .negInf, .posInf => false

/-- `in(x)`: with `NJ = 1` a denormal is read as a zero of its own sign, and every other input is used
as it is (spec/40_vector_compare.md R51; the sign is DESIGN CHOICE of the spec, D18, log entry 8). -/
def flushIn (nj : Bool) (x : Word) : Word :=
  if nj = true ∧ f32IsDenormal x = true then x &&& 0x80000000#32 else x

end Sys2Proof.Machine
end

