-- ==== Sys2Proof/Machine/Flags.lean ====
section
/-! DEFINITION. The flag computation of the record forms: `CR6` from the four lane masks. -/

namespace Sys2Proof.Machine

/-- A lane of the result that is true (spec/40_vector_compare.md R53). -/
def maskTrue : Word := 0xFFFFFFFF#32

/-- A lane of the result that is false (R53). -/
def maskFalse : Word := 0x00000000#32

/-- Whether all four masks are the word `m`. -/
def allFour (m m0 m1 m2 m3 : Word) : Bool := m0 == m && m1 == m && m2 == m && m3 == m

/-- `cr6_from_mask`: `lt` = all true, `gt` = 0, `eq` = all false, `so` = 0 (R54). -/
def cr6FromMask (m0 m1 m2 m3 : Word) : Cr6 :=
  BitVec.ofBool (allFour maskTrue m0 m1 m2 m3) ++ 0#1
    ++ BitVec.ofBool (allFour maskFalse m0 m1 m2 m3) ++ 0#1

/-! ### The bits of `CR6` by name (spec/10_state.md R14) -/

/-- `CR6.lt`, the most significant bit. -/
def cr6Lt (c : Cr6) : Bool := c.getLsbD 3

/-- `CR6.gt`. -/
def cr6Gt (c : Cr6) : Bool := c.getLsbD 2

/-- `CR6.eq`. -/
def cr6Eq (c : Cr6) : Bool := c.getLsbD 1

/-- `CR6.so`, the least significant bit. -/
def cr6So (c : Cr6) : Bool := c.getLsbD 0

/-- Bit `n` of the whole condition register, bit 0 the most significant, as far as the spec carries it:
`CR6` is `CR{24..27}` (R14); the other bits of `CR` are outside the spec (D19). -/
def State.crBit (s : State) (n : Nat) : Option Bool :=
  if 24 ≤ n ∧ n ≤ 27 then some (s.cr6.getLsbD (27 - n)) else none

end Sys2Proof.Machine
end

