-- ==== Sys2Proof/Machine/VectorCompare.lean ====
section
/-! DEFINITION. The one instruction family: vector compare greater-than-or-equal floating point. The
lane comparison, the lane mask, the operation common to the four instructions, and their meanings
(spec/40_vector_compare.md). -/

namespace Sys2Proof.Machine

/-- `ord(x)`: the magnitude bits as an integer, negated when the sign bit is set, so that both zeros
are 0 (R52). -/
def f32Ord (x : Word) : Int :=
  if f32Sign x = 0#1 then ((f32Mag x).toNat : Int) else -((f32Mag x).toNat : Int)

/-- `f32_ge(a, b)`: false when either is a NaN of any kind, else `ord(a) >= ord(b)` (R52). -/
def f32Ge (a b : Word) : Bool :=
  if f32IsNaN a = true ∨ f32IsNaN b = true then false else decide (f32Ord a ≥ f32Ord b)

/-- The mask of one lane: all ones when the comparison of the flushed inputs holds, else zero (R53). -/
def laneMask (nj : Bool) (a b : Word) : Word :=
  if f32Ge (flushIn nj a) (flushIn nj b) = true then maskTrue else maskFalse

/-- `VCMPGE(VD, VA, VB, Rc)`, the operation of all four instructions, its statements in the spec's
order: both sources are read before any write; all 128 bits of `VR[VD]` are written; `CR6` only when
`Rc` is 1; then `pc` advances (R55). -/
def vcmpge (rc : Bool) (vd va vb : VReg) (s : State) : State :=
  let a := s.readVr va
  let b := s.readVr vb
  let m0 := laneMask s.vscr.nj (lane a 0) (lane b 0)
  let m1 := laneMask s.vscr.nj (lane a 1) (lane b 1)
  let m2 := laneMask s.vscr.nj (lane a 2) (lane b 2)
  let m3 := laneMask s.vscr.nj (lane a 3) (lane b 3)
  let s1 := s.writeVr vd (lanes m0 m1 m2 m3)
  let s2 := if rc = true then s1.writeCr6 (cr6FromMask m0 m1 m2 m3) else s1
  s2.advancePc

/-- `vcmpgefp VD, VA, VB` (R56). -/
def execVcmpgefp (vd va vb : VReg) (s : State) : Host.Outcome State Fault Refusal :=
  .next (vcmpge false vd va vb s)

/-- `vcmpgefp. VD, VA, VB` (R57). -/
def execVcmpgefpRc (vd va vb : VReg) (s : State) : Host.Outcome State Fault Refusal :=
  .next (vcmpge true vd va vb s)

/-- `vcmpgefp128 VD, VA, VB`: "Identical semantics with the extended encoding" (R58). -/
def execVcmpgefp128 (vd va vb : VReg) (s : State) : Host.Outcome State Fault Refusal :=
  .next (vcmpge false vd va vb s)

/-- `vcmpgefp128. VD, VA, VB` (R59). -/
def execVcmpgefp128Rc (vd va vb : VReg) (s : State) : Host.Outcome State Fault Refusal :=
  .next (vcmpge true vd va vb s)

end Sys2Proof.Machine
end

