-- ==== Sys2Proof/Machine/Dispatch.lean ====
section
/-! DEFINITION. One arm for each instruction, each one call of its meaning. -/

namespace Sys2Proof.Machine

/-- The meaning of an instruction in a state. -/
def exec (i : Instr) (s : State) : Host.Outcome State Fault Refusal :=
  match i with
  | .vcmpgefp vd va vb => Sys2Proof.Machine.execVcmpgefp vd va vb s
  | .vcmpgefpRc vd va vb => Sys2Proof.Machine.execVcmpgefpRc vd va vb s
  | .vcmpgefp128 vd va vb => Sys2Proof.Machine.execVcmpgefp128 vd va vb s
  | .vcmpgefp128Rc vd va vb => Sys2Proof.Machine.execVcmpgefp128Rc vd va vb s

end Sys2Proof.Machine
end

