-- ==== Sys2Proof/Machine/Step.lean ====
section
/-! DEFINITION. One step of the one agent (spec/70_reset_and_hazards.md R84), and placing a word where
the next step fetches it. -/

namespace Sys2Proof.Machine

/-- One step: a run outside its premises is refused (spec/93_implementation_defined.md U10); otherwise
fetch, decode, and run the instruction, or refuse the word that is none (R84). -/
def step (s : State) : Host.Outcome State Fault Refusal :=
  if s.premises.vmxEnabled = false then .refused .vectorUnitUnavailable
  else if s.premises.noAsync = false then .refused .asyncEvent
  else
    match s.fetch with
    | .error f => .fault f
    | .ok w =>
      match decodeWord s.params.rcBit w with
      | .instr i => exec i s
      | .notInScope w' => .refused (.notInScope s.pc w')

/-- The state with the word of `nbits` bits `w` stored where the next step fetches: the bytes at `pc`,
and the program's place when `pc` is not in it. This stands for the loading of a program from outside
the machine (log entry 5). -/
def State.withFetchWord (s : State) (nbits w : Nat) : State := s.placeWord (tableWord nbits w)

end Sys2Proof.Machine
end

