-- ==== Sys2Proof/Safety.lean ====
section
/-! DEFINITION. The terms claims are stated in: what an instruction's effect is, when a program is loaded,
the invariant of a run, and a launch. -/

namespace Sys2Proof.Machine

/-- What the spec says a next state `t` of the common operation holds, in terms of the state `s` before
it (spec/40_vector_compare.md R53, R54, R55, R61): every field of the state is accounted for, so at most
one `t` meets it. The register, the flag field and `pc` may change; nothing else does. -/
structure VcmpgeEffect (rc : Bool) (vd va vb : VReg) (s t : State) : Prop where
  /-- Each lane of `VR[VD]` is the mask of the comparison of the flushed source lanes (R53). -/
  resultLanes : ∀ i : Fin 4, lane (t.readVr vd) i =
    if f32Ge (flushIn s.vscr.nj (lane (s.readVr va) i)) (flushIn s.vscr.nj (lane (s.readVr vb) i)) = true
    then 0xFFFFFFFF#32 else 0x00000000#32
  /-- Every other vector register is unchanged (R61). -/
  otherRegisters : ∀ n : VReg, n ≠ vd → t.readVr n = s.readVr n
  /-- `CR6` is computed from the four result lanes by a record form and unchanged otherwise
  (R54, spec/10_state.md R14). -/
  cr6 : t.cr6 =
    if rc = true then
      cr6FromMask (lane (t.readVr vd) 0) (lane (t.readVr vd) 1) (lane (t.readVr vd) 2) (lane (t.readVr vd) 3)
    else s.cr6
  /-- `pc <- (pc + 4) mod 2^PC_WIDTH` (spec/10_state.md R13). -/
  pc : t.pc = (s.pc + 4) % 2 ^ s.params.pcWidth
  /-- `VSCR`, both `NJ` and `SAT`, is unchanged (R61, spec/10_state.md R15, R16). -/
  vscr : t.vscr = s.vscr
  /-- All of memory is unchanged (spec/20_memory.md R20). -/
  mem : t.mem = s.mem
  /-- The program stays where it is (spec/20_memory.md R26). -/
  text : t.text = s.text
  params : t.params = s.params
  premises : t.premises = s.premises

/-- The premises `VMX_ENABLED` and `NO_ASYNC` of spec/70_reset_and_hazards.md R81. -/
structure PremisesHold (s : State) : Prop where
  vmxEnabled : s.premises.vmxEnabled = true
  noAsync : s.premises.noAsync = true

/-- Memory holds a word at the address of every program word: what makes `Fetch` defined there
(spec/20_memory.md R23). -/
def TextLoaded (s : State) : Prop :=
  ∀ k, k < s.text.len → ∃ w, Memory.readWord s.mem (s.textAddr k) = some w

/-- `TEXT_LOADED`: the words of `PROGRAM` are what instruction fetch returns at their addresses
(spec/70_reset_and_hazards.md R81). -/
structure ProgramIs (s : State) (words : List Word) : Prop where
  len : s.text.len = words.length
  word : ∀ (k : Nat) (h : k < words.length), Memory.readWord s.mem (s.textAddr k) = some words[k]

/-- The invariant of a run: the parameter and the program are as spec/00_scope.md R4 and
spec/20_memory.md R23 ask, memory keeps its canonical form, and `pc` is an aligned address of a program
word or of the program's end, below `2 ^ PC_WIDTH`. -/
structure Inv (s : State) : Prop where
  width : s.params.wf = true
  baseAligned : s.text.base % 4 = 0
  memWf : Memory.wf s.mem = true
  loaded : TextLoaded s
  pcBound : s.pc < 2 ^ s.params.pcWidth
  pcAligned : s.pc % 4 = 0
  pcPlace : s.inText s.pc = true ∨ s.pc = s.textEnd

/-- `n` steps, stopping at the first fault or refusal: a refusal stands for the whole run
(spec/30_encoding.md R39). It is the host's `run` of this machine (`run_eq_core_run`, Laws/Run.lean). -/
def run : Nat → State → Host.Outcome State Fault Refusal
  | 0, s => .next s
  | n + 1, s =>
    match step s with
    | .next t => run n t
    | .fault f => .fault f
    | .refused r => .refused r

/-- Every word of the list is one of the four instructions under the state's parameters. -/
def AllInScope (s : State) (words : List Word) : Prop :=
  ∀ w ∈ words, ∃ i, decodeWord s.params.rcBit w = .instr i

end Sys2Proof.Machine
end

