-- ==== Sys2Proof/Certificates/Slice0/Obligations.lean ====
section
/-! DEFINITION. The statements for the provers, in the order of the spec's files: encoding, lanes and the
comparison, the instructions, the corner cases, the step, and whole runs. OBLIGATIONS.json lists them.

A statement about instructions quantifies over every state, so nothing rests on the values this model
chose for reset (log entry 1) or for `PC_WIDTH` (log entry 2), and over both places of `Rc` unless it
names one. -/

open Sys2Proof Sys2Proof.Machine

/-! ### Encoding (spec/30_encoding.md) -/

/-- Words written out in spec/95_test_vectors.md V1, V2 and V3 decode to what stands beside them there.
Sanity only. -/
def Obligations.SampleWordsDecode : Prop :=
  decodeWord .bit27 0x106111C6#32 = .instr (.vcmpgefp 3 1 2) ∧
  decodeWord .bit27 0x106115C6#32 = .instr (.vcmpgefpRc 3 1 2) ∧
  decodeWord .bit27 0x18C50CA9#32 = .instr (.vcmpgefp128 70 101 33) ∧
  decodeWord .bit27 0x18C50CB9#32 = .instr (.vcmpgefp128Rc 70 101 33) ∧
  decodeWord .bit25 0x18C50CE9#32 = .instr (.vcmpgefp128Rc 70 101 33) ∧
  decodeWord .bit27 0x180000C0#32 = .notInScope 0x180000C0#32 ∧
  decodeWord .bit27 0x60000000#32 = .notInScope 0x60000000#32

/-- R33: the VC form's register numbers are the three 5-bit fields, unsigned, 0 to 31, whichever of the
form's two instructions the word is. -/
def Obligations.VcRegisterNumbers : Prop :=
  ∀ (rc : RcBit) (w : Word) (vd va vb : VReg),
    (decodeWord rc w = .instr (.vcmpgefp vd va vb) ∨ decodeWord rc w = .instr (.vcmpgefpRc vd va vb)) →
    vd.toNat = (w.toNat / 2 ^ 21) % 32 ∧ va.toNat = (w.toNat / 2 ^ 16) % 32 ∧
      vb.toNat = (w.toNat / 2 ^ 11) % 32 ∧ vd.toNat < 32 ∧ va.toNat < 32 ∧ vb.toNat < 32

/-- R34: the VX128_R form's register numbers, 0 to 127, put together from their pieces. -/
def Obligations.Vx128RegisterNumbers : Prop :=
  ∀ (rc : RcBit) (w : Word) (vd va vb : VReg),
    (decodeWord rc w = .instr (.vcmpgefp128 vd va vb) ∨ decodeWord rc w = .instr (.vcmpgefp128Rc vd va vb)) →
    vd.setWidth 32 = (((w >>> 2) &&& 3#32) <<< 5) ||| ((w >>> 21) &&& 31#32) ∧
    va.setWidth 32 = (((w >>> 10) &&& 1#32) <<< 6) ||| (((w >>> 5) &&& 1#32) <<< 5) ||| ((w >>> 16) &&& 31#32) ∧
    vb.setWidth 32 = ((w &&& 3#32) <<< 5) ||| ((w >>> 11) &&& 31#32) ∧
    vd.toNat ≤ 127 ∧ va.toNat ≤ 127 ∧ vb.toNat ≤ 127

/-- R35: which words are `vcmpgefp` and which are `vcmpgefp.`, by mask and match and by the fields
`OPCD`, `XO` and `Rc`; with `Rc` as a field, the two together. -/
def Obligations.VcOpcodeMap : Prop :=
  ∀ (rc : RcBit) (w : Word),
    ((∃ vd va vb, decodeWord rc w = .instr (.vcmpgefp vd va vb)) ↔ w &&& 0xFC0007FF#32 = 0x100001C6#32) ∧
    ((∃ vd va vb, decodeWord rc w = .instr (.vcmpgefpRc vd va vb)) ↔ w &&& 0xFC0007FF#32 = 0x100005C6#32) ∧
    (w &&& 0xFC0007FF#32 = 0x100001C6#32 ↔
      w >>> 26 = 4#32 ∧ w &&& 0x3FF#32 = 454#32 ∧ (w >>> 10) &&& 1#32 = 0#32) ∧
    (w &&& 0xFC0007FF#32 = 0x100005C6#32 ↔
      w >>> 26 = 4#32 ∧ w &&& 0x3FF#32 = 454#32 ∧ (w >>> 10) &&& 1#32 = 1#32) ∧
    (w &&& 0xFC0003FF#32 = 0x100001C6#32 ↔
      w &&& 0xFC0007FF#32 = 0x100001C6#32 ∨ w &&& 0xFC0007FF#32 = 0x100005C6#32)

/-- R36: which words are `vcmpgefp128` and which are `vcmpgefp128.`, with `VX128R_RC_BIT` 27 and with the
alternative 25; the non-record match is the same for both. -/
def Obligations.Vx128OpcodeMap : Prop :=
  ∀ w : Word,
    (∀ rc : RcBit, (∃ vd va vb, decodeWord rc w = .instr (.vcmpgefp128 vd va vb)) ↔
      w &&& 0xFC0003D0#32 = 0x18000080#32) ∧
    ((∃ vd va vb, decodeWord .bit27 w = .instr (.vcmpgefp128Rc vd va vb)) ↔
      w &&& 0xFC0003D0#32 = 0x18000090#32) ∧
    ((∃ vd va vb, decodeWord .bit25 w = .instr (.vcmpgefp128Rc vd va vb)) ↔
      w &&& 0xFC0003D0#32 = 0x180000C0#32) ∧
    (w &&& 0xFC0003D0#32 = 0x18000080#32 ↔
      w >>> 26 = 6#32 ∧ (w >>> 6) &&& 15#32 = 2#32 ∧ (w >>> 4) &&& 1#32 = 0#32) ∧
    (w &&& 0xFC0003D0#32 = 0x18000090#32 ↔
      w >>> 26 = 6#32 ∧ (w >>> 6) &&& 15#32 = 2#32 ∧ (w >>> 4) &&& 1#32 = 1#32) ∧
    (w &&& 0xFC0003C0#32 = 0x18000080#32 ↔
      w &&& 0xFC0003D0#32 = 0x18000080#32 ∨ w &&& 0xFC0003D0#32 = 0x18000090#32)

/-- R38: the decoder, as the spec's pseudocode gives it, on every word with `VX128R_RC_BIT` 27; the two
patterns exclude each other; and (R38's own inference) different words never decode to the same
instruction. -/
def Obligations.DecoderIsTheSpecsDecoder : Prop :=
  (∀ w : Word, w &&& 0xFC0003FF#32 = 0x100001C6#32 →
    decodeWord .bit27 w = .instr
      (if (w >>> 10) &&& 1#32 = 1#32 then
        .vcmpgefpRc (((w >>> 21) &&& 31#32).setWidth 7) (((w >>> 16) &&& 31#32).setWidth 7)
          (((w >>> 11) &&& 31#32).setWidth 7)
      else
        .vcmpgefp (((w >>> 21) &&& 31#32).setWidth 7) (((w >>> 16) &&& 31#32).setWidth 7)
          (((w >>> 11) &&& 31#32).setWidth 7))) ∧
  (∀ w : Word, w &&& 0xFC0003C0#32 = 0x18000080#32 →
    ∃ vd va vb : VReg,
      vd.setWidth 32 = (((w >>> 2) &&& 3#32) <<< 5) ||| ((w >>> 21) &&& 31#32) ∧
      va.setWidth 32 = (((w >>> 10) &&& 1#32) <<< 6) ||| (((w >>> 5) &&& 1#32) <<< 5) ||| ((w >>> 16) &&& 31#32) ∧
      vb.setWidth 32 = ((w &&& 3#32) <<< 5) ||| ((w >>> 11) &&& 31#32) ∧
      decodeWord .bit27 w = .instr
        (if (w >>> 4) &&& 1#32 = 1#32 then .vcmpgefp128Rc vd va vb else .vcmpgefp128 vd va vb)) ∧
  (∀ w : Word, w &&& 0xFC0003FF#32 ≠ 0x100001C6#32 → w &&& 0xFC0003C0#32 ≠ 0x18000080#32 →
    decodeWord .bit27 w = .notInScope w) ∧
  (∀ w : Word, ¬ (w &&& 0xFC0003FF#32 = 0x100001C6#32 ∧ w &&& 0xFC0003C0#32 = 0x18000080#32)) ∧
  (∀ (rc : RcBit) (w v : Word) (i : Instr), decodeWord rc w = .instr i → decodeWord rc v = .instr i → w = v)

/-- R43: the encoder is the spec's formula, for all operands the form admits, with `VX128R_RC_BIT` 27;
and the spec's worked words. -/
def Obligations.EncoderIsTheSpecsFormula : Prop :=
  (∀ (rc : RcBit) (vd va vb : VReg), vd.toNat < 32 → va.toNat < 32 → vb.toNat < 32 →
    encode rc (.vcmpgefp vd va vb) =
      0x100001C6#32 ||| (vd.setWidth 32 <<< 21) ||| (va.setWidth 32 <<< 16) ||| (vb.setWidth 32 <<< 11)
        ||| (0#32 <<< 10) ∧
    encode rc (.vcmpgefpRc vd va vb) =
      0x100001C6#32 ||| (vd.setWidth 32 <<< 21) ||| (va.setWidth 32 <<< 16) ||| (vb.setWidth 32 <<< 11)
        ||| (1#32 <<< 10)) ∧
  (∀ vd va vb : VReg,
    encode .bit27 (.vcmpgefp128 vd va vb) =
      0x18000080#32 ||| ((vd.setWidth 32 &&& 31#32) <<< 21) ||| ((va.setWidth 32 &&& 31#32) <<< 16)
        ||| ((vb.setWidth 32 &&& 31#32) <<< 11) ||| (((va.setWidth 32 >>> 6) &&& 1#32) <<< 10)
        ||| (((va.setWidth 32 >>> 5) &&& 1#32) <<< 5) ||| (0#32 <<< 4)
        ||| (((vd.setWidth 32 >>> 5) &&& 3#32) <<< 2) ||| ((vb.setWidth 32 >>> 5) &&& 3#32) ∧
    encode .bit27 (.vcmpgefp128Rc vd va vb) =
      0x18000080#32 ||| ((vd.setWidth 32 &&& 31#32) <<< 21) ||| ((va.setWidth 32 &&& 31#32) <<< 16)
        ||| ((vb.setWidth 32 &&& 31#32) <<< 11) ||| (((va.setWidth 32 >>> 6) &&& 1#32) <<< 10)
        ||| (((va.setWidth 32 >>> 5) &&& 1#32) <<< 5) ||| (1#32 <<< 4)
        ||| (((vd.setWidth 32 >>> 5) &&& 3#32) <<< 2) ||| ((vb.setWidth 32 >>> 5) &&& 3#32)) ∧
  encode .bit27 (.vcmpgefp 3 1 2) = 0x106111C6#32 ∧
  encode .bit27 (.vcmpgefp128 70 101 33) = 0x18C50CA9#32

/-- Decoding an encoded well-formed instruction gives it back, for all four instructions, every operand
the encoding admits, and either place of `Rc` (R43's own inference). -/
def Obligations.DecodeOfEncode : Prop :=
  ∀ (rc : RcBit) (i : Instr), i.wf = true → decodeWord rc (encode rc i) = .instr i

/-- The other direction: a word that decodes to an instruction decodes to a well-formed one, whose
encoding is that word, so no bit of the word is dropped (R31, R32: every bit is assigned). -/
def Obligations.EncodeOfDecode : Prop :=
  ∀ (rc : RcBit) (w : Word) (i : Instr), decodeWord rc w = .instr i → i.wf = true ∧ encode rc i = w

/-- The two places of `Rc` agree on every instruction that is not a record form of VX128_R
(spec/90_conflicts.md C6). -/
def Obligations.RcBitAffectsOnlyTheVx128RecordForm : Prop :=
  ∀ (w : Word) (i : Instr), (∀ vd va vb, i ≠ .vcmpgefp128Rc vd va vb) →
    (decodeWord .bit27 w = .instr i ↔ decodeWord .bit25 w = .instr i)

/-! ### Lanes, classes and the comparison (spec/10_state.md R12, spec/40_vector_compare.md R50 to R54) -/

/-- The lane view: lane `i` is bits `127-32i` down to `96-32i` of the register (lane 0 the most
significant: the spec's choice, log entry 8), `lanes` puts four words side by side, and the two undo
each other. -/
def Obligations.LaneView : Prop :=
  (∀ (v : Vec) (i : Fin 4) (k : Nat), k < 32 → (lane v i).getLsbD k = v.getLsbD (96 - 32 * i.val + k)) ∧
  (∀ w0 w1 w2 w3 : Word, lane (lanes w0 w1 w2 w3) 0 = w0 ∧ lane (lanes w0 w1 w2 w3) 1 = w1 ∧
    lane (lanes w0 w1 w2 w3) 2 = w2 ∧ lane (lanes w0 w1 w2 w3) 3 = w3) ∧
  (∀ v : Vec, lanes (lane v 0) (lane v 1) (lane v 2) (lane v 3) = v)

/-- R50's table of classes and values. The table is the spec's own, from general knowledge (log entry 9). -/
def Obligations.LaneClassesAndValues : Prop :=
  ∀ x : Word,
    let e : ℕ := (x.toNat / 2 ^ 23) % 256
    let f : ℕ := x.toNat % 2 ^ 23
    let sgn : ℚ := if x.getLsbD 31 = true then -1 else 1
    (f32Class x = .zero ↔ e = 0 ∧ f = 0) ∧
    (f32Class x = .denormal ↔ e = 0 ∧ f ≠ 0) ∧
    (f32Class x = .normal ↔ 1 ≤ e ∧ e ≤ 254) ∧
    (f32Class x = .infinity ↔ e = 255 ∧ f = 0) ∧
    (f32Class x = .nan ↔ e = 255 ∧ f ≠ 0) ∧
    (f32IsNaN x = true ↔ f32Class x = .nan) ∧
    (f32IsDenormal x = true ↔ f32Class x = .denormal) ∧
    (f32Class x = .zero → f32Value x = .finite 0) ∧
    (f32Class x = .denormal → ∃ u : Int, f32Value x = .finite u ∧
      (u : ℚ) / 2 ^ 149 = sgn * (2 : ℚ) ^ (-126 : ℤ) * ((f : ℚ) / 2 ^ 23)) ∧
    (f32Class x = .normal → ∃ u : Int, f32Value x = .finite u ∧
      (u : ℚ) / 2 ^ 149 = sgn * (2 : ℚ) ^ ((e : ℤ) - 127) * (1 + (f : ℚ) / 2 ^ 23)) ∧
    (f32Class x = .infinity → f32Value x = if x.getLsbD 31 = true then .negInf else .posInf) ∧
    (f32Class x = .nan → f32Value x = .nan)

/-- R51: with `NJ = 1` a denormal input is read as a zero (of its own sign: the spec's choice D18, log
entry 8), every other input as it is; with `NJ = 0` every input as it is (R51's own inference). The
source registers are not changed by it. -/
def Obligations.DenormalInputFlush : Prop :=
  (∀ x : Word, f32IsDenormal x = true →
    f32Class (flushIn true x) = .zero ∧ (flushIn true x).getLsbD 31 = x.getLsbD 31) ∧
  (∀ x : Word, f32IsDenormal x = false → flushIn true x = x) ∧
  (∀ x : Word, flushIn false x = x) ∧
  (∀ (i : Instr) (s : State), ∃ t, exec i s = .next t ∧
    (i.srcA ≠ i.dest → t.readVr i.srcA = s.readVr i.srcA) ∧
    (i.srcB ≠ i.dest → t.readVr i.srcB = s.readVr i.srcB))

/-- R52 "in words": the comparison on bit patterns is the comparison of the values of R50, with `-∞` and
`+∞` the least and the greatest, both zeros equal, and false when either operand is a NaN. The spec
states the integer form as its own restatement; this says it is exact. -/
def Obligations.LaneCompareIsRealOrder : Prop :=
  ∀ a b : Word, f32Ge a b = F32Value.ge (f32Value a) (f32Value b)

/-- The consequences R52 lists as its own inference. -/
def Obligations.LaneCompareConsequences : Prop :=
  (∀ x : Word, f32Ge x x = true ↔ f32IsNaN x = false) ∧
  (∀ a b : Word, (f32Ge a b = true ∨ f32Ge b a = true) ↔ (f32IsNaN a = false ∧ f32IsNaN b = false)) ∧
  f32Ge 0x00000000#32 0x80000000#32 = true ∧ f32Ge 0x80000000#32 0x00000000#32 = true ∧
  (∀ x : Word, f32IsNaN x = false → f32Ge 0x7F800000#32 x = true ∧ f32Ge x 0xFF800000#32 = true)

/-- R53: after any of the four instructions, every lane of `VR[VD]` is all ones or zero by the
comparison of that lane of the flushed sources, and depends on nothing but that lane of each source and
`NJ`: two states, however different otherwise, that agree on these give the same lane. -/
def Obligations.LaneMaskPerLane : Prop :=
  ∀ (i : Instr) (s : State), ∃ t, exec i s = .next t ∧
    (∀ k : Fin 4, lane (t.readVr i.dest) k =
      if f32Ge (flushIn s.vscr.nj (lane (s.readVr i.srcA) k)) (flushIn s.vscr.nj (lane (s.readVr i.srcB) k)) = true
      then 0xFFFFFFFF#32 else 0x00000000#32) ∧
    (∀ (j : Instr) (s' t' : State) (k : Fin 4), exec j s' = .next t' → s'.vscr.nj = s.vscr.nj →
      lane (s'.readVr j.srcA) k = lane (s.readVr i.srcA) k →
      lane (s'.readVr j.srcB) k = lane (s.readVr i.srcB) k →
      lane (t'.readVr j.dest) k = lane (t.readVr i.dest) k)

/-- R54: the four bits of `CR6` from the masks, and (R54's own inference) the three values they can
make together. -/
def Obligations.Cr6FromMasks : Prop :=
  ∀ m0 m1 m2 m3 : Word,
    (cr6Lt (cr6FromMask m0 m1 m2 m3) = true ↔
      m0 = 0xFFFFFFFF#32 ∧ m1 = 0xFFFFFFFF#32 ∧ m2 = 0xFFFFFFFF#32 ∧ m3 = 0xFFFFFFFF#32) ∧
    cr6Gt (cr6FromMask m0 m1 m2 m3) = false ∧
    (cr6Eq (cr6FromMask m0 m1 m2 m3) = true ↔ m0 = 0#32 ∧ m1 = 0#32 ∧ m2 = 0#32 ∧ m3 = 0#32) ∧
    cr6So (cr6FromMask m0 m1 m2 m3) = false ∧
    (cr6FromMask m0 m1 m2 m3 = 0b1000#4 ∨ cr6FromMask m0 m1 m2 m3 = 0b0010#4 ∨
      cr6FromMask m0 m1 m2 m3 = 0b0000#4)

/-! ### The instructions (R55 to R59, R61) -/

/-- R55: each of the four instructions completes in every state, for every operand, with the effect of
`VCMPGE(VD, VA, VB, Rc)`; the sources are those before the write, so `VD` may be one of them. -/
def Obligations.CommonOperation : Prop :=
  ∀ (vd va vb : VReg) (s : State),
    (∃ t, exec (.vcmpgefp vd va vb) s = .next t ∧ VcmpgeEffect false vd va vb s t) ∧
    (∃ t, exec (.vcmpgefpRc vd va vb) s = .next t ∧ VcmpgeEffect true vd va vb s t) ∧
    (∃ t, exec (.vcmpgefp128 vd va vb) s = .next t ∧ VcmpgeEffect false vd va vb s t) ∧
    (∃ t, exec (.vcmpgefp128Rc vd va vb) s = .next t ∧ VcmpgeEffect true vd va vb s t)

/-- R56: `vcmpgefp`, from its words to its effect, with the rule's example. -/
def Obligations.VcmpgefpInstruction : Prop :=
  (∀ (rc : RcBit) (w : Word), w &&& 0xFC0007FF#32 = 0x100001C6#32 →
    ∃ vd va vb : VReg, vd.toNat = (w.toNat / 2 ^ 21) % 32 ∧ va.toNat = (w.toNat / 2 ^ 16) % 32 ∧
      vb.toNat = (w.toNat / 2 ^ 11) % 32 ∧ decodeWord rc w = .instr (.vcmpgefp vd va vb)) ∧
  (∀ (vd va vb : VReg) (s : State),
    ∃ t, exec (.vcmpgefp vd va vb) s = .next t ∧ VcmpgeEffect false vd va vb s t) ∧
  (∀ s : State, s.vscr.nj = true →
    s.readVr 1 = lanes 0x3F800000#32 0x40000000#32 0x7FC00000#32 0x80000000#32 →
    s.readVr 2 = lanes 0x3F800000#32 0x40400000#32 0x3F800000#32 0x00000000#32 →
    ∃ t, decodeWord .bit27 0x106111C6#32 = .instr (.vcmpgefp 3 1 2) ∧ exec (.vcmpgefp 3 1 2) s = .next t ∧
      t.readVr 3 = lanes 0xFFFFFFFF#32 0x00000000#32 0x00000000#32 0xFFFFFFFF#32 ∧
      t.cr6 = s.cr6 ∧ t.pc = (s.pc + 4) % 2 ^ s.params.pcWidth)

/-- R57: `vcmpgefp.`, from its words to its effect, with the rule's two examples. -/
def Obligations.VcmpgefpRecordInstruction : Prop :=
  (∀ (rc : RcBit) (w : Word), w &&& 0xFC0007FF#32 = 0x100005C6#32 →
    ∃ vd va vb : VReg, vd.toNat = (w.toNat / 2 ^ 21) % 32 ∧ va.toNat = (w.toNat / 2 ^ 16) % 32 ∧
      vb.toNat = (w.toNat / 2 ^ 11) % 32 ∧ decodeWord rc w = .instr (.vcmpgefpRc vd va vb)) ∧
  (∀ (vd va vb : VReg) (s : State),
    ∃ t, exec (.vcmpgefpRc vd va vb) s = .next t ∧ VcmpgeEffect true vd va vb s t) ∧
  (∀ s : State, s.vscr.nj = true →
    s.readVr 1 = lanes 0x3F800000#32 0x40000000#32 0x7FC00000#32 0x80000000#32 →
    s.readVr 2 = lanes 0x3F800000#32 0x40400000#32 0x3F800000#32 0x00000000#32 →
    ∃ t, decodeWord .bit27 0x106115C6#32 = .instr (.vcmpgefpRc 3 1 2) ∧ exec (.vcmpgefpRc 3 1 2) s = .next t ∧
      t.readVr 3 = lanes 0xFFFFFFFF#32 0x00000000#32 0x00000000#32 0xFFFFFFFF#32 ∧ t.cr6 = 0b0000#4) ∧
  (∀ s : State, s.vscr.nj = true →
    s.readVr 1 = lanes 0x3F800000#32 0x3F800000#32 0x3F800000#32 0x3F800000#32 →
    s.readVr 2 = lanes 0x3F800000#32 0x3F800000#32 0x3F800000#32 0x3F800000#32 →
    ∃ t, exec (.vcmpgefpRc 3 1 2) s = .next t ∧
      t.readVr 3 = lanes 0xFFFFFFFF#32 0xFFFFFFFF#32 0xFFFFFFFF#32 0xFFFFFFFF#32 ∧ t.cr6 = 0b1000#4)

/-- R58: `vcmpgefp128`, from its words to its effect, with the rule's example for both values of `NJ`. -/
def Obligations.Vcmpgefp128Instruction : Prop :=
  (∀ (rc : RcBit) (w : Word), w &&& 0xFC0003D0#32 = 0x18000080#32 →
    ∃ vd va vb : VReg,
      vd.setWidth 32 = (((w >>> 2) &&& 3#32) <<< 5) ||| ((w >>> 21) &&& 31#32) ∧
      va.setWidth 32 = (((w >>> 10) &&& 1#32) <<< 6) ||| (((w >>> 5) &&& 1#32) <<< 5) ||| ((w >>> 16) &&& 31#32) ∧
      vb.setWidth 32 = ((w &&& 3#32) <<< 5) ||| ((w >>> 11) &&& 31#32) ∧
      decodeWord rc w = .instr (.vcmpgefp128 vd va vb)) ∧
  (∀ (vd va vb : VReg) (s : State),
    ∃ t, exec (.vcmpgefp128 vd va vb) s = .next t ∧ VcmpgeEffect false vd va vb s t) ∧
  (∀ s : State,
    s.readVr 101 = lanes 0x7F800000#32 0xFF800000#32 0x00000001#32 0xBF800000#32 →
    s.readVr 33 = lanes 0x7F7FFFFF#32 0xFF800000#32 0x00000002#32 0x80000001#32 →
    ∃ t, decodeWord .bit27 0x18C50CA9#32 = .instr (.vcmpgefp128 70 101 33) ∧
      exec (.vcmpgefp128 70 101 33) s = .next t ∧
      t.readVr 70 = lanes 0xFFFFFFFF#32 0xFFFFFFFF#32
        (if s.vscr.nj = true then 0xFFFFFFFF#32 else 0x00000000#32) 0x00000000#32 ∧
      t.cr6 = s.cr6)

/-- R59: `vcmpgefp128.`, from its words to its effect with `VX128R_RC_BIT` 27, with the rule's example:
four NaN lanes against any second operand. -/
def Obligations.Vcmpgefp128RecordInstruction : Prop :=
  (∀ w : Word, w &&& 0xFC0003D0#32 = 0x18000090#32 →
    ∃ vd va vb : VReg,
      vd.setWidth 32 = (((w >>> 2) &&& 3#32) <<< 5) ||| ((w >>> 21) &&& 31#32) ∧
      va.setWidth 32 = (((w >>> 10) &&& 1#32) <<< 6) ||| (((w >>> 5) &&& 1#32) <<< 5) ||| ((w >>> 16) &&& 31#32) ∧
      vb.setWidth 32 = ((w &&& 3#32) <<< 5) ||| ((w >>> 11) &&& 31#32) ∧
      decodeWord .bit27 w = .instr (.vcmpgefp128Rc vd va vb)) ∧
  (∀ (vd va vb : VReg) (s : State),
    ∃ t, exec (.vcmpgefp128Rc vd va vb) s = .next t ∧ VcmpgeEffect true vd va vb s t) ∧
  (∀ s : State, s.vscr.nj = true →
    s.readVr 101 = lanes 0x7FC00000#32 0x7F800001#32 0xFFC00000#32 0xFFFFFFFF#32 →
    ∃ t, decodeWord .bit27 0x18C50CB9#32 = .instr (.vcmpgefp128Rc 70 101 33) ∧
      exec (.vcmpgefp128Rc 70 101 33) s = .next t ∧
      t.readVr 70 = lanes 0#32 0#32 0#32 0#32 ∧ t.cr6 = 0b0010#4)

/-- R61, as far as the state carries it: what an instruction leaves unchanged. Every vector register but
`VD`, `VSCR` (`NJ` and `SAT`), every byte of memory, the program and the parameters; `CR6` unless the
instruction is a record form; and the next instruction is always the one at `pc + 4`. -/
def Obligations.InstructionFrame : Prop :=
  ∀ (i : Instr) (s t : State), exec i s = .next t →
    (∀ n : VReg, n ≠ i.dest → t.readVr n = s.readVr n) ∧
    (i.isRecord = false → t.cr6 = s.cr6) ∧
    t.vscr.nj = s.vscr.nj ∧ t.vscr.sat = s.vscr.sat ∧
    (∀ a : Nat, Memory.read t.mem a = Memory.read s.mem a) ∧ t.mem = s.mem ∧
    t.text = s.text ∧ t.params = s.params ∧ t.premises = s.premises ∧
    t.pc = (s.pc + 4) % 2 ^ s.params.pcWidth

/-- R70: every instruction completes in every state, for every operand value and register number: none
raises an exception. -/
def Obligations.NoInstructionTraps : Prop :=
  ∀ (i : Instr) (s : State), (∃ t, exec i s = .next t) ∧
    (∀ f, exec i s ≠ .fault f) ∧ (∀ r, exec i s ≠ .refused r)

/-- R13: no instruction reads `pc` as an operand: changing `pc` changes nothing of the next state but
its `pc`, which is always four past, modulo `2^PC_WIDTH`. -/
def Obligations.ProgramCounterIsNoOperand : Prop :=
  ∀ (i : Instr) (s : State) (p : Nat), ∃ t, exec i s = .next t ∧
    t.pc = (s.pc + 4) % 2 ^ s.params.pcWidth ∧
    exec i { s with pc := p } = .next { t with pc := (p + 4) % 2 ^ s.params.pcWidth }

/-- R11: one register file of 128 independent registers, each reading back the last value written; a
number up to 31 names the same register in both forms, so the two forms have the same effect. -/
def Obligations.VectorRegisterFile : Prop :=
  (∀ (s : State) (n : VReg) (v : Vec), (s.writeVr n v).readVr n = v) ∧
  (∀ (s : State) (n k : VReg) (v : Vec), k ≠ n → (s.writeVr n v).readVr k = s.readVr k) ∧
  (∀ (vd va vb : VReg) (s : State),
    exec (.vcmpgefp vd va vb) s = exec (.vcmpgefp128 vd va vb) s ∧
    exec (.vcmpgefpRc vd va vb) s = exec (.vcmpgefp128Rc vd va vb) s)

/-- R14: after a record form, `CR` bit 24 is set exactly when all four lanes are true, bit 26 exactly when
all four are false, bits 25 and 27 are 0; the model's `CR` bits are 24 to 27 and no others. That `CR6` is
bits 24 to 27 is R14's own inference. -/
def Obligations.Cr6InTheConditionRegister : Prop :=
  (∀ (i : Instr) (s : State), i.isRecord = true → ∃ t, exec i s = .next t ∧
    (t.crBit 24 = some true ↔ ∀ k : Fin 4, lane (t.readVr i.dest) k = 0xFFFFFFFF#32) ∧
    t.crBit 25 = some false ∧
    (t.crBit 26 = some true ↔ ∀ k : Fin 4, lane (t.readVr i.dest) k = 0x00000000#32) ∧
    t.crBit 27 = some false) ∧
  (∀ (s : State) (n : Nat), (s.crBit n).isSome = true ↔ 24 ≤ n ∧ n ≤ 27)

/-! ### Corner cases (R60, the spec's own inferences) and the snapshot (R62) -/

/-- R60 item 1: a NaN of any kind in either operand makes the lane false, for either `NJ`. -/
def Obligations.NanLaneIsFalse : Prop :=
  ∀ (i : Instr) (s : State) (k : Fin 4),
    (f32IsNaN (lane (s.readVr i.srcA) k) = true ∨ f32IsNaN (lane (s.readVr i.srcB) k) = true) →
    ∃ t, exec i s = .next t ∧ lane (t.readVr i.dest) k = 0x00000000#32

/-- R60 items 2 and 3: zeros of either sign are equal, and the infinities are the least and the
greatest. -/
def Obligations.ZerosAndInfinities : Prop :=
  (∀ a b : Word, f32Class a = .zero → f32Class b = .zero → f32Ge a b = true) ∧
  (∀ x : Word, f32IsNaN x = false →
    f32Ge 0x7F800000#32 x = true ∧ f32Ge x 0xFF800000#32 = true ∧
    (f32Ge 0xFF800000#32 x = true ↔ x = 0xFF800000#32) ∧
    (f32Ge x 0x7F800000#32 = true ↔ x = 0x7F800000#32))

/-- R60 item 4: with `NJ = 1` a denormal counts as zero; with `NJ = 0` denormals compare by value. -/
def Obligations.DenormalsCompareAsZero : Prop :=
  (∀ d x : Word, f32IsDenormal d = true → (f32IsDenormal x = true ∨ f32Class x = .zero) →
    f32Ge (flushIn true d) (flushIn true x) = true ∧ f32Ge (flushIn true x) (flushIn true d) = true) ∧
  (∀ d n : Word, f32IsDenormal d = true → f32Class n = .normal →
    f32Ge (flushIn true d) (flushIn true n) = f32Ge 0#32 n ∧
    f32Ge (flushIn true n) (flushIn true d) = f32Ge n 0#32) ∧
  (∀ d x : Word, f32IsDenormal d = true → f32IsDenormal x = true →
    f32Ge (flushIn false d) (flushIn false x) = F32Value.ge (f32Value d) (f32Value x))

/-- R60 item 5: the flush turns false lanes true and never a true lane false; where the two values of
`NJ` differ, an operand is denormal, and the rule's two examples are such. -/
def Obligations.FlushOnlyTurnsLanesTrue : Prop :=
  (∀ a b : Word, f32Ge (flushIn false a) (flushIn false b) = true → f32Ge (flushIn true a) (flushIn true b) = true) ∧
  (∀ a b : Word, f32Ge (flushIn false a) (flushIn false b) ≠ f32Ge (flushIn true a) (flushIn true b) ↔
    (f32IsDenormal a = true ∨ f32IsDenormal b = true) ∧ f32Ge (flushIn false a) (flushIn false b) = false ∧
      f32Ge (flushIn true a) (flushIn true b) = true) ∧
  (∀ a z : Word, f32IsDenormal a = true → f32Class z = .zero →
    (f32Sign a = 1#1 → f32Ge (flushIn false a) (flushIn false z) = false ∧ f32Ge (flushIn true a) (flushIn true z) = true) ∧
    (f32Sign a = 0#1 → f32Ge (flushIn false z) (flushIn false a) = false ∧ f32Ge (flushIn true z) (flushIn true a) = true))

/-- R60 item 6: with one register as both sources, a lane is true exactly when it is no NaN, so a
record form sets `CR6.lt` exactly when no lane is a NaN and `CR6.eq` exactly when every lane is. -/
def Obligations.SameRegisterTestsForNan : Prop :=
  ∀ (i : Instr) (s : State), i.srcA = i.srcB → ∃ t, exec i s = .next t ∧
    (∀ k : Fin 4, lane (t.readVr i.dest) k = 0xFFFFFFFF#32 ↔ f32IsNaN (lane (s.readVr i.srcA) k) = false) ∧
    (i.isRecord = true →
      (cr6Lt t.cr6 = true ↔ ∀ k : Fin 4, f32IsNaN (lane (s.readVr i.srcA) k) = false) ∧
      (cr6Eq t.cr6 = true ↔ ∀ k : Fin 4, f32IsNaN (lane (s.readVr i.srcA) k) = true))

/-- R60 item 7: comparing a mask with itself writes its complement, for either `NJ`. -/
def Obligations.MaskInversion : Prop :=
  ∀ (i : Instr) (s : State), i.srcA = i.srcB →
    (∀ k : Fin 4, lane (s.readVr i.srcA) k = 0xFFFFFFFF#32 ∨ lane (s.readVr i.srcA) k = 0x00000000#32) →
    ∃ t, exec i s = .next t ∧ t.readVr i.dest = ~~~ (s.readVr i.srcA)

/-- R60 item 9: `CR6` after a record form is one of three values, and says which. -/
def Obligations.Cr6AfterRecordForm : Prop :=
  ∀ (i : Instr) (s : State), i.isRecord = true → ∃ t, exec i s = .next t ∧
    (t.cr6 = 0b1000#4 ∨ t.cr6 = 0b0010#4 ∨ t.cr6 = 0b0000#4) ∧
    (t.cr6 = 0b1000#4 ↔ t.readVr i.dest = BitVec.allOnes 128) ∧ (t.cr6 = 0b0010#4 ↔ t.readVr i.dest = 0#128)

/-- R62: the raw lane comparison of the source's snapshot, which tests no `NJ`, gives the lanes of the
instruction in every state with `NJ = 0`, and in every state with `NJ = 1` in which no lane of either
source is denormal. -/
def Obligations.SnapshotAgreesWithoutDenormals : Prop :=
  ∀ (i : Instr) (s : State),
    (s.vscr.nj = false ∨ ∀ k : Fin 4, f32IsDenormal (lane (s.readVr i.srcA) k) = false ∧
      f32IsDenormal (lane (s.readVr i.srcB) k) = false) →
    ∃ t, exec i s = .next t ∧ ∀ k : Fin 4, lane (t.readVr i.dest) k =
      if f32Ge (lane (s.readVr i.srcA) k) (lane (s.readVr i.srcB) k) = true then 0xFFFFFFFF#32 else 0x00000000#32

/-- A result is visible to the very next instruction. That it is, the source does not state: it is the
spec's choice D16 in R82 (DESIGN CHOICE, log entry 14). A comparison followed at once by the record form
of its result with itself, the example of R82 with any registers, leaves the complement of the result,
and each of the four bits of `CR6` as that complement gives it: `lt` exactly when the result was zero in
every lane, `eq` exactly when it was all ones in every lane, `gt` and `so` clear. -/
def Obligations.ResultVisibleToNextInstruction : Prop :=
  ∀ (vd va vb vc : VReg) (s : State), ∃ t u,
    exec (.vcmpgefp vd va vb) s = .next t ∧ exec (.vcmpgefpRc vc vd vd) t = .next u ∧
    u.readVr vc = ~~~ (t.readVr vd) ∧
    (cr6Lt u.cr6 = true ↔ t.readVr vd = 0#128) ∧
    (cr6Eq u.cr6 = true ↔ t.readVr vd = BitVec.allOnes 128) ∧
    cr6Gt u.cr6 = false ∧ cr6So u.cr6 = false

/-! ### The step (R21 to R23, R39, R84) -/

/-- The step is `exec` of the decoded instruction: when the premises hold, `pc` is an aligned address of
a program word (and not the program's end), and the four bytes there decode to an instruction, `step` is
exactly `exec` of it and answers a next state; the step adds nothing around `exec`. (That the addresses of
program words and of the program's end wrap modulo `2^PC_WIDTH` is this model's reading, DEDUCED, log
entry 6.) -/
def Obligations.StepRunsTheDecodedInstruction : Prop :=
  ∀ (s : State) (b0 b1 b2 b3 : Byte) (i : Instr), PremisesHold s → s.pc % 4 = 0 → s.pc ≠ s.textEnd →
    s.inText s.pc = true → Memory.read s.mem s.pc = some b0 → Memory.read s.mem (s.pc + 1) = some b1 →
    Memory.read s.mem (s.pc + 2) = some b2 → Memory.read s.mem (s.pc + 3) = some b3 →
    decodeBytes s.params.rcBit [b0, b1, b2, b3] = .word (.instr i) [] →
    step s = exec i s ∧ ∃ t, step s = .next t

/-- The outcomes of a step, in the order R84 tries them: stuck at a misaligned `pc`, over at the program's
end, stuck outside the program, else the fetched word's instruction or its refusal. Two things here are
this model's and not R84's: the addresses of program words and of the program's end are taken modulo
`2^PC_WIDTH`, where R84 writes the sums without a modulus (DEDUCED, log entry 6), and a stuck state and
the end of the run, which have no step in R84, are answered as faults by name (DESIGN CHOICE, log
entry 11). -/
def Obligations.StepOutcomes : Prop :=
  ∀ s : State, PremisesHold s →
    (s.pc % 4 ≠ 0 → step s = .fault (.misalignedPc s.pc)) ∧
    (s.pc % 4 = 0 → s.pc = (s.text.base + 4 * s.text.len) % 2 ^ s.params.pcWidth →
      step s = .fault (.endOfRun s.pc)) ∧
    (s.pc % 4 = 0 → s.pc ≠ (s.text.base + 4 * s.text.len) % 2 ^ s.params.pcWidth →
      (∀ k, k < s.text.len → s.pc ≠ (s.text.base + 4 * k) % 2 ^ s.params.pcWidth) →
      step s = .fault (.outsideProgram s.pc)) ∧
    (∀ k w, s.pc % 4 = 0 → s.pc ≠ (s.text.base + 4 * s.text.len) % 2 ^ s.params.pcWidth →
      k < s.text.len → s.pc = (s.text.base + 4 * k) % 2 ^ s.params.pcWidth →
      Memory.readWord s.mem s.pc = some w →
      (∀ i, decodeWord s.params.rcBit w = .instr i → step s = exec i s) ∧
      (decodeWord s.params.rcBit w = .notInScope w → step s = .refused (.notInScope s.pc w)))

/-- Outside the premises `VMX_ENABLED` and `NO_ASYNC` every step is refused, never run
(spec/93_implementation_defined.md U10; that the premises are fields of the state is this model's
choice, log entry 7). -/
def Obligations.RunOutsideThePremisesIsRefused : Prop :=
  ∀ (s : State) (n : Nat),
    (s.premises.vmxEnabled = false → run (n + 1) s = .refused .vectorUnitUnavailable) ∧
    (s.premises.vmxEnabled = true → s.premises.noAsync = false →
      run (n + 1) s = .refused .asyncEvent)

/-- R39: a word that matches neither pattern is refused by its address and value, whatever the number of
steps asked for: it is no trap, no no-op and no instruction. -/
def Obligations.OutOfScopeWordIsRefused : Prop :=
  ∀ (s : State) (w : Word) (n : Nat), PremisesHold s → s.params.rcBit = .bit27 → s.fetch = .ok w →
    w &&& 0xFC0003FF#32 ≠ 0x100001C6#32 → w &&& 0xFC0003C0#32 ≠ 0x18000080#32 →
    run (n + 1) s = .refused (.notInScope s.pc w)

/-- R21: the fetched word is assembled big-endian from the four bytes at `pc`: the byte at `pc` is word
bits 0–7, the byte at `pc + 3` bits 24–31. (Big-endian is the spec's choice D4, log entry 4.) -/
def Obligations.FetchIsBigEndian : Prop :=
  ∀ (s : State) (w : Word), s.fetch = .ok w →
    Memory.read s.mem s.pc = some (w.extractLsb' 24 8) ∧
    Memory.read s.mem (s.pc + 1) = some (w.extractLsb' 16 8) ∧
    Memory.read s.mem (s.pc + 2) = some (w.extractLsb' 8 8) ∧
    Memory.read s.mem (s.pc + 3) = some (w.extractLsb' 0 8)

/-- With a program loaded, fetch at the address of its word `k` answers that word: `Fetch(base + 4k)` of
R23. The address is taken modulo `2^PC_WIDTH`, where R23 writes the sum without a modulus: that is this
model's reading (DEDUCED, log entry 6). It has one corner, a program of exactly `2^PC_WIDTH` bytes: the
program's end is then the address of word 0, and in the order of R84 fetch there answers the end of the
run (a fault by name: DESIGN CHOICE, log entry 11); its other words are fetched as in any program. -/
def Obligations.FetchReturnsTheProgramsWords : Prop :=
  ∀ (s : State) (words : List Word) (k : Nat) (h : k < words.length),
    s.params.wf = true → s.text.base % 4 = 0 → ProgramIs s words →
    s.pc = (s.text.base + 4 * k) % 2 ^ s.params.pcWidth → 4 * words.length ≤ 2 ^ s.params.pcWidth →
    (0 < k ∨ 4 * words.length < 2 ^ s.params.pcWidth → s.fetch = .ok words[k]) ∧
    (k = 0 → 4 * words.length = 2 ^ s.params.pcWidth → s.fetch = .error (.endOfRun s.pc))

/-- What placing a word for the next step does (this model's own operation, log entry 5): at an aligned
`pc`, the next step runs exactly that word, and no register changes by the placing. -/
def Obligations.PlacedWordIsRunNext : Prop :=
  ∀ (s : State) (nbits w : Nat), PremisesHold s → s.params.wf = true → s.pc % 4 = 0 →
    s.pc < 2 ^ s.params.pcWidth →
    (∀ i, decodeWord s.params.rcBit (BitVec.ofNat 32 (w % 2 ^ nbits)) = .instr i →
      step (s.withFetchWord nbits w) = exec i (s.withFetchWord nbits w)) ∧
    (decodeWord s.params.rcBit (BitVec.ofNat 32 (w % 2 ^ nbits)) =
        .notInScope (BitVec.ofNat 32 (w % 2 ^ nbits)) →
      step (s.withFetchWord nbits w) = .refused (.notInScope s.pc (BitVec.ofNat 32 (w % 2 ^ nbits)))) ∧
    (s.withFetchWord nbits w).pc = s.pc ∧ (s.withFetchWord nbits w).vr = s.vr ∧
    (s.withFetchWord nbits w).cr6 = s.cr6 ∧ (s.withFetchWord nbits w).vscr = s.vscr ∧
    (∀ a, a < s.pc ∨ s.pc + 4 ≤ a → Memory.read (s.withFetchWord nbits w).mem a = Memory.read s.mem a)

/-! ### Runs (R18, R26, R80, R81, R85) -/

/-- Reset meets the invariant and the premises, with the one value the spec gives, `NJ = 1` (R18). -/
def Obligations.ResetMeetsTheInvariant : Prop :=
  Inv State.reset ∧ PremisesHold State.reset ∧ State.reset.vscr.nj = true

/-- A launch (R80): for every parameter value the spec allows, every contents of the registers, every
aligned base and every program that fits the address space, the launch state meets the invariant and
the premises of R81, its program is the one given, and its registers are what the launch has. (Program
addresses wrap modulo `2^PC_WIDTH`: DEDUCED, log entry 6.) -/
def Obligations.LaunchMeetsThePremises : Prop :=
  ∀ (p : Params) (vr : Vector Vec 128) (cr6 : Cr6) (vscr : Vscr) (base : Nat) (words : List Word),
    p.wf = true → base % 4 = 0 → 4 * words.length ≤ 2 ^ p.pcWidth →
    let s := State.launch p vr cr6 vscr base words
    Inv s ∧ PremisesHold s ∧ ProgramIs s words ∧ s.pc = s.textAddr 0 ∧ s.params = p ∧ s.vr = vr ∧
      s.cr6 = cr6 ∧ s.vscr = vscr

/-- Every step keeps the invariant of a run: the parameter is legal, memory is canonical, the program is
loaded, and `pc` is an aligned address of a program word or of its end, these addresses modulo
`2^PC_WIDTH` (DEDUCED, log entry 6). -/
def Obligations.StepKeepsTheInvariant : Prop :=
  ∀ s t : State, Inv s → step s = .next t → Inv t

/-- From a state of the invariant no step is stuck: it gives a next state, or the run is over at the
program's end, or the word at `pc` is refused as out of scope (R84; U2 and U3 are unreachable). Two things
here are this model's: the end of the run, which has no step in R84, is answered as a fault by name (DESIGN
CHOICE, log entry 11), and the program's end and the invariant's program addresses wrap modulo
`2^PC_WIDTH` (DEDUCED, log entry 6). -/
def Obligations.NoStepIsStuckUnderTheInvariant : Prop :=
  ∀ s : State, Inv s → PremisesHold s →
    (∃ t, step s = .next t) ∨ (s.pc = s.textEnd ∧ step s = .fault (.endOfRun s.pc)) ∨
    (∃ w, Memory.readWord s.mem s.pc = some w ∧ step s = .refused (.notInScope s.pc w))

/-- Over any number of steps, `VSCR`, the program's bytes and place, and the parameters stay as they
were (R15, R26). -/
def Obligations.RunKeepsVscrAndProgram : Prop :=
  ∀ (n : Nat) (s t : State), run n s = .next t →
    t.vscr = s.vscr ∧ t.mem = s.mem ∧ t.text = s.text ∧ t.params = s.params ∧ t.premises = s.premises

/-- R85: a program of n in-scope words launched at its base ends after exactly n steps: the n-th state is
the first at the program's end, where the run is over. (The end of a run is the spec's choice D15, answered
as a fault by name: DESIGN CHOICE, log entry 11. Program addresses wrap modulo `2^PC_WIDTH`, DEDUCED, log
entry 6; a program of exactly `2^PC_WIDTH` bytes, whose end is its base, is over at once and is left
out.) -/
def Obligations.ProgramEndsAfterItsLength : Prop :=
  ∀ (s : State) (words : List Word), Inv s → PremisesHold s → ProgramIs s words → AllInScope s words →
    4 * words.length < 2 ^ s.params.pcWidth → s.pc = s.textAddr 0 →
    (∃ t, run words.length s = .next t ∧ t.pc = s.textEnd ∧
      step t = .fault (.endOfRun s.textEnd)) ∧
    (∀ k, k < words.length → ∃ t, run k s = .next t ∧ t.pc = s.textAddr k ∧ t.pc ≠ s.textEnd)

/-- R85, second half: a program with an out-of-scope word stops, refused, at the first such word. (Program
addresses wrap modulo `2^PC_WIDTH`, DEDUCED, log entry 6; a program of exactly `2^PC_WIDTH` bytes, whose
end is its base, is over at once and is left out.) -/
def Obligations.ProgramStopsAtItsFirstOutOfScopeWord : Prop :=
  ∀ (s : State) (words : List Word) (k : Nat) (h : k < words.length), Inv s → PremisesHold s →
    ProgramIs s words → AllInScope s (words.take k) → decodeWord s.params.rcBit words[k] = .notInScope words[k] →
    4 * words.length < 2 ^ s.params.pcWidth → s.pc = s.textAddr 0 →
    ∀ n, run (k + 1 + n) s = .refused (.notInScope (s.textAddr k) words[k])
end

