-- ==== Sys2Proof/Laws/Encoding.lean ====
section
/-! SUPPORT. A word is its fields put side by side, for each form; a mask and match is an equation on
fields; and the register numbers of an encoded word. -/

namespace Sys2Proof

/-! ### Splitting a word into the fields of a form -/

/-- A word in the fields of form VC (R31). -/
theorem word_eq_vcFields (w : Word) :
    w = msbField w 0 5 ++ msbField w 6 10 ++ msbField w 11 15 ++ msbField w 16 20 ++ msbField w 21 21
      ++ msbField w 22 31 := by
  apply BitVec.eq_of_getLsbD_eq
  intro i hi
  simp only [BitVec.getLsbD_append, msbField, BitVec.getLsbD_extractLsb']
  interval_cases i <;> simp

/-- A word in the fields of form VX128_R (R32), the four bits 22–25 and the bits after them one by one. -/
theorem word_eq_vx128Fields (w : Word) :
    w = msbField w 0 5 ++ msbField w 6 10 ++ msbField w 11 15 ++ msbField w 16 20 ++ msbField w 21 21
      ++ msbField w 22 24 ++ msbField w 25 25 ++ msbField w 26 26 ++ msbField w 27 27 ++ msbField w 28 29
      ++ msbField w 30 31 := by
  apply BitVec.eq_of_getLsbD_eq
  intro i hi
  simp only [BitVec.getLsbD_append, msbField, BitVec.getLsbD_extractLsb']
  interval_cases i <;> simp

/-- The field of a word and of a masked word, where the mask is all ones. -/
theorem msbField_and_of_ones (w m : Word) (a b : Nat) (h : msbField m a b = BitVec.allOnes _) :
    msbField (w &&& m) a b = msbField w a b := by
  have e : msbField (w &&& m) a b = msbField w a b &&& msbField m a b := by
    unfold msbField
    exact BitVec.extractLsb'_and
  rw [e, h, BitVec.and_allOnes]

/-! ### The patterns as equations on fields -/

/-- The VC pattern (R35): `OPCD = 4` and `XO = 454`. -/
theorem vcPattern_iff (w : Word) :
    w &&& vcMask = vcMatch ↔ msbField w 0 5 = 4#6 ∧ msbField w 22 31 = 454#10 := by
  constructor
  · intro h
    have e0 := msbField_and_of_ones w vcMask 0 5 (by decide)
    have e1 := msbField_and_of_ones w vcMask 22 31 (by decide)
    rw [h] at e0 e1
    exact ⟨e0.symm.trans (by decide), e1.symm.trans (by decide)⟩
  · rintro ⟨h0, h1⟩
    rw [word_eq_vcFields w, h0, h1]
    apply BitVec.eq_of_getLsbD_eq
    intro i hi
    simp only [vcMask, vcMatch, BitVec.getLsbD_and, BitVec.getLsbD_append]
    interval_cases i <;> simp

/-- The VX128_R pattern with `Rc` at bit 27 (R36): `OPCD = 6` and `XO = 0b0010`. -/
theorem vx128Pattern_bit27_iff (w : Word) :
    w &&& vx128Mask .bit27 = vx128Match ↔
      msbField w 0 5 = 6#6 ∧ msbField w 22 24 = 1#3 ∧ msbField w 25 25 = 0#1 := by
  constructor
  · intro h
    have e0 := msbField_and_of_ones w (vx128Mask .bit27) 0 5 (by decide)
    have e1 := msbField_and_of_ones w (vx128Mask .bit27) 22 24 (by decide)
    have e2 := msbField_and_of_ones w (vx128Mask .bit27) 25 25 (by decide)
    rw [h] at e0 e1 e2
    exact ⟨e0.symm.trans (by decide), e1.symm.trans (by decide), e2.symm.trans (by decide)⟩
  · rintro ⟨h0, h1, h2⟩
    rw [word_eq_vx128Fields w, h0, h1, h2]
    apply BitVec.eq_of_getLsbD_eq
    intro i hi
    simp only [vx128Mask, vx128Match, BitVec.getLsbD_and, BitVec.getLsbD_append]
    interval_cases i <;> simp

/-- The VX128_R pattern with `Rc` at bit 25 (the warning of R32). -/
theorem vx128Pattern_bit25_iff (w : Word) :
    w &&& vx128Mask .bit25 = vx128Match ↔
      msbField w 0 5 = 6#6 ∧ msbField w 22 24 = 1#3 ∧ msbField w 27 27 = 0#1 := by
  constructor
  · intro h
    have e0 := msbField_and_of_ones w (vx128Mask .bit25) 0 5 (by decide)
    have e1 := msbField_and_of_ones w (vx128Mask .bit25) 22 24 (by decide)
    have e2 := msbField_and_of_ones w (vx128Mask .bit25) 27 27 (by decide)
    rw [h] at e0 e1 e2
    exact ⟨e0.symm.trans (by decide), e1.symm.trans (by decide), e2.symm.trans (by decide)⟩
  · rintro ⟨h0, h1, h2⟩
    rw [word_eq_vx128Fields w, h0, h1, h2]
    apply BitVec.eq_of_getLsbD_eq
    intro i hi
    simp only [vx128Mask, vx128Match, BitVec.getLsbD_and, BitVec.getLsbD_append]
    interval_cases i <;> simp

/-- The two patterns exclude each other: they differ in `OPCD` (R38). -/
theorem patterns_exclusive (rc : RcBit) (w : Word) (h : w &&& vcMask = vcMatch) :
    w &&& vx128Mask rc ≠ vx128Match := by
  intro h'
  have h4 := ((vcPattern_iff w).mp h).1
  have h6 : msbField w 0 5 = 6#6 := by
    cases rc with
    | bit27 => exact ((vx128Pattern_bit27_iff w).mp h').1
    | bit25 => exact ((vx128Pattern_bit25_iff w).mp h').1
  rw [h4] at h6
  exact absurd h6 (by decide)

/-! ### What the decoder can answer -/

theorem decodeWord_of_vc (rc : RcBit) {w : Word} (h : w &&& vcMask = vcMatch) :
    decodeWord rc w =
      if vcRc w = 1#1 then .instr (.vcmpgefpRc (vcVD w) (vcVA w) (vcVB w))
      else .instr (.vcmpgefp (vcVD w) (vcVA w) (vcVB w)) := by
  unfold decodeWord
  rw [if_pos h]

theorem decodeWord_of_vx128 (rc : RcBit) {w : Word} (h : w &&& vx128Mask rc = vx128Match) :
    decodeWord rc w =
      if vx128Rc rc w = 1#1 then .instr (.vcmpgefp128Rc (vx128VD w) (vx128VA w) (vx128VB w))
      else .instr (.vcmpgefp128 (vx128VD w) (vx128VA w) (vx128VB w)) := by
  unfold decodeWord
  rw [if_neg fun h' => patterns_exclusive rc w h' h, if_pos h]

theorem decodeWord_of_neither (rc : RcBit) {w : Word} (h : w &&& vcMask ≠ vcMatch)
    (h' : w &&& vx128Mask rc ≠ vx128Match) : decodeWord rc w = .notInScope w := by
  unfold decodeWord
  rw [if_neg h, if_neg h']

/-- The decoder's answers, each with the pattern, the record bit and the fields that give it. -/
theorem decodeWord_cases (rc : RcBit) (w : Word) :
    (w &&& vcMask = vcMatch ∧ vcRc w = 0#1 ∧
      decodeWord rc w = .instr (.vcmpgefp (vcVD w) (vcVA w) (vcVB w))) ∨
    (w &&& vcMask = vcMatch ∧ vcRc w = 1#1 ∧
      decodeWord rc w = .instr (.vcmpgefpRc (vcVD w) (vcVA w) (vcVB w))) ∨
    (w &&& vx128Mask rc = vx128Match ∧ vx128Rc rc w = 0#1 ∧
      decodeWord rc w = .instr (.vcmpgefp128 (vx128VD w) (vx128VA w) (vx128VB w))) ∨
    (w &&& vx128Mask rc = vx128Match ∧ vx128Rc rc w = 1#1 ∧
      decodeWord rc w = .instr (.vcmpgefp128Rc (vx128VD w) (vx128VA w) (vx128VB w))) ∨
    (w &&& vcMask ≠ vcMatch ∧ w &&& vx128Mask rc ≠ vx128Match ∧ decodeWord rc w = .notInScope w) := by
  have bit (b : BitVec 1) : b = 0#1 ∨ b = 1#1 := by revert b; decide
  by_cases h : w &&& vcMask = vcMatch
  · rcases bit (vcRc w) with hb | hb
    · exact .inl ⟨h, hb, by rw [decodeWord_of_vc rc h, hb]; rfl⟩
    · exact .inr (.inl ⟨h, hb, by rw [decodeWord_of_vc rc h, hb]; rfl⟩)
  · by_cases h' : w &&& vx128Mask rc = vx128Match
    · rcases bit (vx128Rc rc w) with hb | hb
      · exact .inr (.inr (.inl ⟨h', hb, by rw [decodeWord_of_vx128 rc h', hb]; rfl⟩))
      · exact .inr (.inr (.inr (.inl ⟨h', hb, by rw [decodeWord_of_vx128 rc h', hb]; rfl⟩)))
    · exact .inr (.inr (.inr (.inr ⟨h, h', decodeWord_of_neither rc h h'⟩)))

/-! ### The fields of an encoded word -/

/-- A register number the VC form can hold is its low five bits. -/
theorem VReg.low5_setWidth {r : VReg} (h : VReg.fitsVc r = true) : (VReg.low5 r).setWidth 7 = r := by
  revert h
  revert r
  decide

/-- A register number is its high two and its low five bits (R34, `VD` and `VB`). -/
theorem VReg.high2_append_low5 (r : VReg) : (VReg.high2 r ++ VReg.low5 r : BitVec (2 + 5)) = r := by
  revert r
  decide

/-- A register number is its bit 6, its bit 5 and its low five bits (R34, `VA`). -/
theorem VReg.bit6_append_bit5_append_low5 (r : VReg) :
    (VReg.bit6 r ++ VReg.bit5 r ++ VReg.low5 r : BitVec (1 + 1 + 5)) = r := by
  revert r
  decide

section
variable (vd va vb : VReg) (rc : BitVec 1)

theorem encodeVc_field_0_5 : msbField (encodeVc vd va vb rc) 0 5 = 4#6 := by
  apply BitVec.eq_of_getLsbD_eq
  intro i hi
  simp only [encodeVc, msbField, BitVec.getLsbD_extractLsb', BitVec.getLsbD_append]
  interval_cases i <;> simp

theorem encodeVc_field_6_10 : msbField (encodeVc vd va vb rc) 6 10 = VReg.low5 vd := by
  apply BitVec.eq_of_getLsbD_eq
  intro i hi
  simp only [encodeVc, msbField, BitVec.getLsbD_extractLsb', BitVec.getLsbD_append]
  interval_cases i <;> simp

theorem encodeVc_field_11_15 : msbField (encodeVc vd va vb rc) 11 15 = VReg.low5 va := by
  apply BitVec.eq_of_getLsbD_eq
  intro i hi
  simp only [encodeVc, msbField, BitVec.getLsbD_extractLsb', BitVec.getLsbD_append]
  interval_cases i <;> simp

theorem encodeVc_field_16_20 : msbField (encodeVc vd va vb rc) 16 20 = VReg.low5 vb := by
  apply BitVec.eq_of_getLsbD_eq
  intro i hi
  simp only [encodeVc, msbField, BitVec.getLsbD_extractLsb', BitVec.getLsbD_append]
  interval_cases i <;> simp

theorem encodeVc_field_21_21 : msbField (encodeVc vd va vb rc) 21 21 = rc := by
  apply BitVec.eq_of_getLsbD_eq
  intro i hi
  simp only [encodeVc, msbField, BitVec.getLsbD_extractLsb', BitVec.getLsbD_append]
  interval_cases i
  simp

theorem encodeVc_field_22_31 : msbField (encodeVc vd va vb rc) 22 31 = 454#10 := by
  apply BitVec.eq_of_getLsbD_eq
  intro i hi
  simp only [encodeVc, msbField, BitVec.getLsbD_extractLsb', BitVec.getLsbD_append]
  interval_cases i <;> simp

/-- The fields of an encoded VX128_R word that do not depend on the place of `Rc`. -/
theorem encodeVx128_fields (p : RcBit) :
    msbField (encodeVx128 p vd va vb rc) 0 5 = 6#6 ∧
    msbField (encodeVx128 p vd va vb rc) 6 10 = VReg.low5 vd ∧
    msbField (encodeVx128 p vd va vb rc) 11 15 = VReg.low5 va ∧
    msbField (encodeVx128 p vd va vb rc) 16 20 = VReg.low5 vb ∧
    msbField (encodeVx128 p vd va vb rc) 21 21 = VReg.bit6 va ∧
    msbField (encodeVx128 p vd va vb rc) 22 24 = 1#3 ∧
    msbField (encodeVx128 p vd va vb rc) 26 26 = VReg.bit5 va ∧
    msbField (encodeVx128 p vd va vb rc) 28 29 = VReg.high2 vd ∧
    msbField (encodeVx128 p vd va vb rc) 30 31 = VReg.high2 vb := by
  cases p <;> refine ⟨?_, ?_, ?_, ?_, ?_, ?_, ?_, ?_, ?_⟩ <;>
  · apply BitVec.eq_of_getLsbD_eq
    intro i hi
    simp only [encodeVx128, msbField, BitVec.getLsbD_extractLsb', BitVec.getLsbD_append]
    interval_cases i <;> simp

theorem encodeVx128_bit27_rest :
    msbField (encodeVx128 .bit27 vd va vb rc) 25 25 = 0#1 ∧
    msbField (encodeVx128 .bit27 vd va vb rc) 27 27 = rc := by
  refine ⟨?_, ?_⟩ <;>
  · apply BitVec.eq_of_getLsbD_eq
    intro i hi
    simp only [encodeVx128, msbField, BitVec.getLsbD_extractLsb', BitVec.getLsbD_append]
    interval_cases i
    simp

theorem encodeVx128_bit25_rest :
    msbField (encodeVx128 .bit25 vd va vb rc) 25 25 = rc ∧
    msbField (encodeVx128 .bit25 vd va vb rc) 27 27 = 0#1 := by
  refine ⟨?_, ?_⟩ <;>
  · apply BitVec.eq_of_getLsbD_eq
    intro i hi
    simp only [encodeVx128, msbField, BitVec.getLsbD_extractLsb', BitVec.getLsbD_append]
    interval_cases i
    simp

end

end Sys2Proof
end

