-- ==== Sys2Proof/Laws/State.lean ====
section
/-! SUPPORT. One lemma for each field under each update of the state, and the read-after-write laws of
the vector register file. -/

namespace Sys2Proof.Machine

/-! ### `writeVr` -/

@[simp] theorem State.writeVr_params (s : State) (n : VReg) (v : Vec) : (s.writeVr n v).params = s.params := rfl
@[simp] theorem State.writeVr_premises (s : State) (n : VReg) (v : Vec) : (s.writeVr n v).premises = s.premises := rfl
@[simp] theorem State.writeVr_text (s : State) (n : VReg) (v : Vec) : (s.writeVr n v).text = s.text := rfl
@[simp] theorem State.writeVr_mem (s : State) (n : VReg) (v : Vec) : (s.writeVr n v).mem = s.mem := rfl
@[simp] theorem State.writeVr_pc (s : State) (n : VReg) (v : Vec) : (s.writeVr n v).pc = s.pc := rfl
@[simp] theorem State.writeVr_cr6 (s : State) (n : VReg) (v : Vec) : (s.writeVr n v).cr6 = s.cr6 := rfl
@[simp] theorem State.writeVr_vscr (s : State) (n : VReg) (v : Vec) : (s.writeVr n v).vscr = s.vscr := rfl

@[simp] theorem State.readVr_writeVr_same (s : State) (n : VReg) (v : Vec) :
    (s.writeVr n v).readVr n = v := by
  simp [State.readVr, State.writeVr]

theorem State.readVr_writeVr_of_ne (s : State) {n k : VReg} (v : Vec) (h : k ≠ n) :
    (s.writeVr n v).readVr k = s.readVr k := by
  have hne : n.toNat ≠ k.toNat := fun e => h (BitVec.eq_of_toNat_eq e.symm)
  simp [State.readVr, State.writeVr, hne]

/-! ### `writeCr6` -/

@[simp] theorem State.writeCr6_params (s : State) (c : Cr6) : (s.writeCr6 c).params = s.params := rfl
@[simp] theorem State.writeCr6_premises (s : State) (c : Cr6) : (s.writeCr6 c).premises = s.premises := rfl
@[simp] theorem State.writeCr6_text (s : State) (c : Cr6) : (s.writeCr6 c).text = s.text := rfl
@[simp] theorem State.writeCr6_mem (s : State) (c : Cr6) : (s.writeCr6 c).mem = s.mem := rfl
@[simp] theorem State.writeCr6_pc (s : State) (c : Cr6) : (s.writeCr6 c).pc = s.pc := rfl
@[simp] theorem State.writeCr6_cr6 (s : State) (c : Cr6) : (s.writeCr6 c).cr6 = c := rfl
@[simp] theorem State.writeCr6_vscr (s : State) (c : Cr6) : (s.writeCr6 c).vscr = s.vscr := rfl
@[simp] theorem State.writeCr6_readVr (s : State) (c : Cr6) (n : VReg) : (s.writeCr6 c).readVr n = s.readVr n := rfl

/-! ### `advancePc` -/

@[simp] theorem State.advancePc_params (s : State) : s.advancePc.params = s.params := rfl
@[simp] theorem State.advancePc_premises (s : State) : s.advancePc.premises = s.premises := rfl
@[simp] theorem State.advancePc_text (s : State) : s.advancePc.text = s.text := rfl
@[simp] theorem State.advancePc_mem (s : State) : s.advancePc.mem = s.mem := rfl
@[simp] theorem State.advancePc_pc (s : State) : s.advancePc.pc = (s.pc + 4) % 2 ^ s.params.pcWidth := rfl
@[simp] theorem State.advancePc_cr6 (s : State) : s.advancePc.cr6 = s.cr6 := rfl
@[simp] theorem State.advancePc_vscr (s : State) : s.advancePc.vscr = s.vscr := rfl
@[simp] theorem State.advancePc_readVr (s : State) (n : VReg) : s.advancePc.readVr n = s.readVr n := rfl

/-- Two states that agree on every field are equal; the register file by its reads. -/
theorem State.ext_fields {s t : State} (hp : s.params = t.params) (hq : s.premises = t.premises)
    (ht : s.text = t.text) (hm : s.mem = t.mem) (hpc : s.pc = t.pc)
    (hv : ∀ n : VReg, s.readVr n = t.readVr n) (hc : s.cr6 = t.cr6) (hs : s.vscr = t.vscr) : s = t := by
  have hvr : s.vr = t.vr := by
    apply Vector.ext
    intro i hi
    have h := hv (BitVec.ofNat 7 i)
    simpa [State.readVr, Nat.mod_eq_of_lt (show i < 128 from hi)] using h
  cases s
  cases t
  simp_all

end Sys2Proof.Machine
end

