-- ==== Sys2Proof/Laws/Memory.lean ====
section
/-! SUPPORT. The laws of instruction memory: read after write, canonical form, words, and fetch. -/

namespace Sys2Proof.Machine

/-! ### Bytes -/

@[simp] theorem Memory.read_nil (a : Nat) : Memory.read [] a = none := rfl

theorem Memory.read_cons (k : Nat) (v : Byte) (m : Memory) (a : Nat) :
    Memory.read ((k, v) :: m) a = if k = a then some v else Memory.read m a := rfl

/-- An address below every listed one holds no byte. -/
theorem Memory.read_of_lt_all {m : Memory} {a : Nat} (h : ∀ c ∈ m, a < c.1) : Memory.read m a = none := by
  induction m with
  | nil => rfl
  | cons c m ih =>
    obtain ⟨k, v⟩ := c
    have hk : a < k := h (k, v) (by simp)
    rw [Memory.read_cons, if_neg (by omega)]
    exact ih fun c hc => h c (by simp [hc])

@[simp] theorem Memory.read_write_same (m : Memory) (a : Nat) (v : Byte) :
    Memory.read (Memory.write m a v) a = some v := by
  induction m with
  | nil => simp [Memory.write, Memory.read_cons]
  | cons c m ih =>
    obtain ⟨k, x⟩ := c
    simp only [Memory.write]
    split
    · simp [Memory.read_cons]
    · split
      · simp [Memory.read_cons]
      · rw [Memory.read_cons, if_neg (by omega)]
        exact ih

theorem Memory.read_write_of_ne (m : Memory) {a b : Nat} (v : Byte) (h : b ≠ a) :
    Memory.read (Memory.write m a v) b = Memory.read m b := by
  induction m with
  | nil => simp [Memory.write, Memory.read_cons, Ne.symm h]
  | cons c m ih =>
    obtain ⟨k, x⟩ := c
    simp only [Memory.write]
    split
    · rw [Memory.read_cons a, if_neg (Ne.symm h)]
    · split
      · next hak =>
        subst hak
        rw [Memory.read_cons, Memory.read_cons, if_neg (Ne.symm h), if_neg (Ne.symm h)]
      · rw [Memory.read_cons, Memory.read_cons, ih]

/-! ### The canonical form -/

theorem Memory.wf_iff (m : Memory) :
    Memory.wf m = true ↔ m.Pairwise fun c d => c.1 < d.1 := by
  simp [Memory.wf, Memory.unlisted]

theorem Memory.wf_nil : Memory.wf [] = true := by simp [Memory.wf_iff]

/-- A store lists no address but its own and those listed before. -/
theorem Memory.mem_write {m : Memory} {a : Nat} {v : Byte} {c : Host.Cell}
    (h : c ∈ Memory.write m a v) : c.1 = a ∨ c ∈ m := by
  induction m with
  | nil => simp only [Memory.write, List.mem_singleton] at h; subst h; exact .inl rfl
  | cons d m ih =>
    obtain ⟨k, x⟩ := d
    simp only [Memory.write] at h
    split at h
    · rcases List.mem_cons.mp h with rfl | h
      · exact .inl rfl
      · exact .inr h
    · split at h
      · rcases List.mem_cons.mp h with rfl | h
        · exact .inl rfl
        · exact .inr (List.mem_cons_of_mem _ h)
      · rcases List.mem_cons.mp h with rfl | h
        · exact .inr List.mem_cons_self
        · exact (ih h).imp_right (List.mem_cons_of_mem _)

/-- A store keeps the canonical form. -/
theorem Memory.write_wf {m : Memory} (a : Nat) (v : Byte) (h : Memory.wf m = true) :
    Memory.wf (Memory.write m a v) = true := by
  rw [Memory.wf_iff] at h ⊢
  induction m with
  | nil => simp [Memory.write]
  | cons c m ih =>
    obtain ⟨k, x⟩ := c
    rw [List.pairwise_cons] at h
    simp only [Memory.write]
    split
    · next hlt =>
      rw [List.pairwise_cons, List.pairwise_cons]
      refine ⟨fun d hd => ?_, h⟩
      rcases List.mem_cons.mp hd with rfl | hd
      · exact hlt
      · exact Nat.lt_trans hlt (h.1 d hd)
    · split
      · next hak => subst hak; exact List.pairwise_cons.mpr h
      · next hlt hne =>
        refine List.pairwise_cons.mpr ⟨fun d hd => ?_, ih h.2⟩
        rcases Memory.mem_write hd with hda | hd
        · change k < d.1
          omega
        · exact h.1 d hd

theorem Memory.writeWord_wf {m : Memory} (a : Nat) (w : Word) (h : Memory.wf m = true) :
    Memory.wf (Memory.writeWord m a w) = true :=
  Memory.write_wf _ _ (Memory.write_wf _ _ (Memory.write_wf _ _ (Memory.write_wf _ _ h)))

theorem Memory.loadWords_wf {m : Memory} (n a : Nat) (ws : List Word) (h : Memory.wf m = true) :
    Memory.wf (Memory.loadWords n m a ws) = true := by
  induction ws generalizing m a with
  | nil => exact h
  | cons w ws ih => exact ih _ (Memory.writeWord_wf _ _ h)

/-- Two memories in canonical form that read alike everywhere are the same list. -/
theorem Memory.eq_of_read_eq {m n : Memory} (hm : Memory.wf m = true) (hn : Memory.wf n = true)
    (h : ∀ a, Memory.read m a = Memory.read n a) : m = n := by
  rw [Memory.wf_iff] at hm hn
  induction m generalizing n with
  | nil =>
    cases n with
    | nil => rfl
    | cons d n =>
      obtain ⟨k, v⟩ := d
      simpa [Memory.read_cons] using h k
  | cons c m ih =>
    obtain ⟨k, v⟩ := c
    cases n with
    | nil => simpa [Memory.read_cons] using h k
    | cons d n =>
      obtain ⟨l, x⟩ := d
      rw [List.pairwise_cons] at hm hn
      have hk := h k
      have hl := h l
      rw [Memory.read_cons, Memory.read_cons] at hk hl
      have hkl : k = l := by
        rcases Nat.lt_trichotomy k l with hlt | heq | hgt
        · rw [if_pos rfl, if_neg (by omega),
            Memory.read_of_lt_all fun c hc => Nat.lt_trans hlt (hn.1 c hc)] at hk
          cases hk
        · exact heq
        · rw [if_pos rfl, if_neg (by omega),
            Memory.read_of_lt_all fun c hc => Nat.lt_trans hgt (hm.1 c hc)] at hl
          cases hl
      subst hkl
      rw [if_pos rfl, if_pos rfl] at hk
      cases hk
      refine congrArg _ (ih hm.2 hn.2 fun a => ?_)
      by_cases hak : k = a
      · subst hak
        rw [Memory.read_of_lt_all hm.1, Memory.read_of_lt_all hn.1]
      · have ha := h a
        rwa [Memory.read_cons, Memory.read_cons, if_neg hak, if_neg hak] at ha

/-! ### Words -/

/-- The four bytes of a word, put together big-endian, are the word. -/
@[simp] theorem wordOfBytes_byteOfWord (w : Word) :
    wordOfBytes (byteOfWord w 0) (byteOfWord w 1) (byteOfWord w 2) (byteOfWord w 3) = w := by
  apply BitVec.eq_of_getLsbD_eq
  intro i hi
  simp only [wordOfBytes, byteOfWord, BitVec.getLsbD_append, BitVec.getLsbD_extractLsb']
  by_cases h0 : i < 8
  · simp [h0]
  · by_cases h1 : i < 16
    · simp [h0, show i - 8 < 8 by omega, show 8 + (i - 8) = i by omega]
    · by_cases h2 : i < 24
      · simp [h0, show ¬ i - 8 < 8 by omega, show i - 8 - 8 < 8 by omega, show 16 + (i - 8 - 8) = i by omega]
      · simp [h0, show ¬ i - 8 < 8 by omega, show ¬ i - 8 - 8 < 8 by omega,
          show i - 8 - 8 - 8 < 8 by omega, show 24 + (i - 8 - 8 - 8) = i by omega]

/-- A byte outside the four of a stored word reads as before. -/
theorem Memory.read_writeWord_of_ne (m : Memory) (a : Nat) (w : Word) {b : Nat}
    (h : b < a ∨ a + 4 ≤ b) : Memory.read (Memory.writeWord m a w) b = Memory.read m b := by
  unfold Memory.writeWord
  rw [Memory.read_write_of_ne _ _ (by omega), Memory.read_write_of_ne _ _ (by omega),
    Memory.read_write_of_ne _ _ (by omega), Memory.read_write_of_ne _ _ (by omega)]

/-- The byte `k` above the address of a stored word is the word's byte `k`. -/
theorem Memory.read_writeWord_byte (m : Memory) (a : Nat) (w : Word) {k : Nat} (h : k < 4) :
    Memory.read (Memory.writeWord m a w) (a + k) = some (byteOfWord w k) := by
  unfold Memory.writeWord
  obtain rfl | rfl | rfl | rfl : k = 0 ∨ k = 1 ∨ k = 2 ∨ k = 3 := by omega
  · rw [Memory.read_write_of_ne _ _ (by omega), Memory.read_write_of_ne _ _ (by omega),
      Memory.read_write_of_ne _ _ (by omega), Nat.add_zero, Memory.read_write_same]
  · rw [Memory.read_write_of_ne _ _ (by omega), Memory.read_write_of_ne _ _ (by omega),
      Memory.read_write_same]
  · rw [Memory.read_write_of_ne _ _ (by omega), Memory.read_write_same]
  · rw [Memory.read_write_same]

/-- `readWord` is the four bytes put together big-endian, when all four are there. -/
theorem Memory.readWord_eq_some_iff (m : Memory) (a : Nat) (w : Word) :
    Memory.readWord m a = some w ↔ ∃ b0 b1 b2 b3, Memory.read m a = some b0 ∧ Memory.read m (a + 1) = some b1 ∧
      Memory.read m (a + 2) = some b2 ∧ Memory.read m (a + 3) = some b3 ∧ wordOfBytes b0 b1 b2 b3 = w := by
  unfold Memory.readWord
  split
  · next h0 h1 h2 h3 => simp [h0, h1, h2, h3]
  · next h =>
    constructor
    · intro hc; cases hc
    · rintro ⟨b0, b1, b2, b3, h0, h1, h2, h3, -⟩
      exact absurd h3 (h b0 b1 b2 b3 h0 h1 h2)

@[simp] theorem Memory.readWord_writeWord_same (m : Memory) (a : Nat) (w : Word) :
    Memory.readWord (Memory.writeWord m a w) a = some w := by
  rw [Memory.readWord_eq_some_iff]
  exact ⟨_, _, _, _, by simpa using Memory.read_writeWord_byte m a w (k := 0) (by omega),
    Memory.read_writeWord_byte m a w (by omega), Memory.read_writeWord_byte m a w (by omega),
    Memory.read_writeWord_byte m a w (by omega), wordOfBytes_byteOfWord w⟩

/-- A word that shares no byte with a stored one reads as before. -/
theorem Memory.readWord_writeWord_of_disjoint (m : Memory) (a : Nat) (w : Word) {b : Nat}
    (h : b + 4 ≤ a ∨ a + 4 ≤ b) : Memory.readWord (Memory.writeWord m a w) b = Memory.readWord m b := by
  unfold Memory.readWord
  rw [Memory.read_writeWord_of_ne _ _ _ (by omega), Memory.read_writeWord_of_ne _ _ _ (by omega),
    Memory.read_writeWord_of_ne _ _ _ (by omega), Memory.read_writeWord_of_ne _ _ _ (by omega)]

/-- Aligned words at different addresses share no byte. -/
theorem Memory.readWord_writeWord_of_aligned_ne (m : Memory) {a b : Nat} (w : Word)
    (ha : a % 4 = 0) (hb : b % 4 = 0) (h : b ≠ a) :
    Memory.readWord (Memory.writeWord m a w) b = Memory.readWord m b :=
  Memory.readWord_writeWord_of_disjoint m a w (by omega)

/-! ### The addresses of program words -/

theorem State.inText_iff (s : State) (a : Nat) :
    s.inText a = true ↔ ∃ k, k < s.text.len ∧ a = s.textAddr k := by
  simp [State.inText, List.any_eq_true]

theorem four_dvd_two_pow {n : Nat} (h : 3 ≤ n) : 4 ∣ 2 ^ n :=
  Dvd.dvd.trans (by decide) (pow_dvd_pow 2 (Nat.le_trans (by decide : 2 ≤ 3) h))

/-- `Params.wf` says what the spec asks of `PC_WIDTH`. -/
theorem Params.wf_iff (p : Params) : p.wf = true ↔ 3 ≤ p.pcWidth := by simp [Params.wf]

/-- A program word stands at a multiple of 4 when its base does. -/
theorem State.textAddr_mod_four (s : State) (hw : s.params.wf = true) (hb : s.text.base % 4 = 0) (k : Nat) :
    s.textAddr k % 4 = 0 := by
  unfold State.textAddr State.pcModulus
  rw [Nat.mod_mod_of_dvd _ (four_dvd_two_pow ((Params.wf_iff _).mp hw))]
  simp only [instrBytes]
  omega

theorem State.textAddr_lt (s : State) (k : Nat) : s.textAddr k < 2 ^ s.params.pcWidth :=
  Nat.mod_lt _ (Nat.two_pow_pos _)

/-- The address four past a program word is the next one's, modulo `2^PC_WIDTH`. -/
theorem State.textAddr_succ (s : State) (k : Nat) :
    (s.textAddr k + 4) % 2 ^ s.params.pcWidth = s.textAddr (k + 1) := by
  simp only [State.textAddr, State.pcModulus, instrBytes, Nat.mod_add_mod]
  congr 1

/-! ### Fetch: everything it can answer (R84) -/

theorem State.fetch_misaligned {s : State} (h : s.pc % 4 ≠ 0) : s.fetch = .error (.misalignedPc s.pc) := by
  simp [State.fetch, instrBytes, h]

theorem State.fetch_end {s : State} (h : s.pc % 4 = 0) (he : s.pc = s.textEnd) :
    s.fetch = .error (.endOfRun s.pc) := by
  unfold State.fetch
  rw [if_neg (by simp [instrBytes, h]), if_pos he]

theorem State.fetch_outside {s : State} (h : s.pc % 4 = 0) (he : s.pc ≠ s.textEnd)
    (ho : s.inText s.pc = false) : s.fetch = .error (.outsideProgram s.pc) := by
  unfold State.fetch
  rw [if_neg (by simp [instrBytes, h]), if_neg he, if_pos ho]

theorem State.fetch_notLoaded {s : State} (h : s.pc % 4 = 0) (he : s.pc ≠ s.textEnd)
    (ho : s.inText s.pc = true) (hn : Memory.readWord s.mem s.pc = none) :
    s.fetch = .error (.textNotLoaded s.pc) := by
  unfold State.fetch
  rw [if_neg (by simp [instrBytes, h]), if_neg he, if_neg (by simp [ho]), hn]

theorem State.fetch_loaded {s : State} {w : Word} (h : s.pc % 4 = 0) (he : s.pc ≠ s.textEnd)
    (ho : s.inText s.pc = true) (hr : Memory.readWord s.mem s.pc = some w) : s.fetch = .ok w := by
  unfold State.fetch
  rw [if_neg (by simp [instrBytes, h]), if_neg he, if_neg (by simp [ho]), hr]

/-- When fetch answers a word, `pc` is aligned, not the end, in the program, and memory holds the
word there. -/
theorem State.fetch_eq_ok_iff (s : State) (w : Word) :
    s.fetch = .ok w ↔ s.pc % 4 = 0 ∧ s.pc ≠ s.textEnd ∧ s.inText s.pc = true ∧
      Memory.readWord s.mem s.pc = some w := by
  by_cases ha : s.pc % 4 = 0
  · by_cases he : s.pc = s.textEnd
    · simp [State.fetch_end ha he, he]
    · cases ho : s.inText s.pc with
      | false => simp [State.fetch_outside ha he ho]
      | true =>
        cases hr : Memory.readWord s.mem s.pc with
        | none => simp [State.fetch_notLoaded ha he ho hr]
        | some v => simp [State.fetch_loaded ha he ho hr, ha, he]
  · simp [State.fetch_misaligned ha, ha]

end Sys2Proof.Machine
end

