-- ==== Sys2Proof/Laws/VectorCompare.lean ====
section
/-! SUPPORT. The laws of lanes, masks and the common operation: each field of the state after
`VCMPGE`, for provers to cite instead of unfolding it. -/

namespace Sys2Proof.Machine

/-! ### Lanes -/

@[simp] theorem lane_lanes_zero (w0 w1 w2 w3 : Word) : lane (lanes w0 w1 w2 w3) 0 = w0 := by
  apply BitVec.eq_of_getLsbD_eq
  intro i hi
  simp only [lane, lanes, BitVec.getLsbD_extractLsb', BitVec.getLsbD_append]
  interval_cases i <;> simp

@[simp] theorem lane_lanes_one (w0 w1 w2 w3 : Word) : lane (lanes w0 w1 w2 w3) 1 = w1 := by
  apply BitVec.eq_of_getLsbD_eq
  intro i hi
  simp only [lane, lanes, BitVec.getLsbD_extractLsb', BitVec.getLsbD_append]
  interval_cases i <;> simp

@[simp] theorem lane_lanes_two (w0 w1 w2 w3 : Word) : lane (lanes w0 w1 w2 w3) 2 = w2 := by
  apply BitVec.eq_of_getLsbD_eq
  intro i hi
  simp only [lane, lanes, BitVec.getLsbD_extractLsb', BitVec.getLsbD_append]
  interval_cases i <;> simp

@[simp] theorem lane_lanes_three (w0 w1 w2 w3 : Word) : lane (lanes w0 w1 w2 w3) 3 = w3 := by
  apply BitVec.eq_of_getLsbD_eq
  intro i hi
  simp only [lane, lanes, BitVec.getLsbD_extractLsb', BitVec.getLsbD_append]
  interval_cases i <;> simp

/-- Two register values with the same four lanes are the same value. -/
theorem eq_of_lane_eq {v u : Vec} (h : ∀ i : Fin 4, lane v i = lane u i) : v = u := by
  apply BitVec.eq_of_getLsbD_eq
  intro i hi
  have key : ∀ j : Fin 4, ∀ k, k < 32 → v.getLsbD (96 - 32 * j.val + k) = u.getLsbD (96 - 32 * j.val + k) := by
    intro j k hk
    have := congrArg (fun w : Word => w.getLsbD k) (h j)
    simpa [lane, BitVec.getLsbD_extractLsb', hk] using this
  have hj : 3 - i / 32 < 4 := by omega
  have := key ⟨3 - i / 32, hj⟩ (i % 32) (by omega)
  have e : 96 - 32 * (3 - i / 32) + i % 32 = i := by omega
  simpa only [e] using this

/-! ### Masks -/

/-- A lane mask is all ones or zero. -/
theorem laneMask_cases (nj : Bool) (a b : Word) : laneMask nj a b = maskTrue ∨ laneMask nj a b = maskFalse := by
  unfold laneMask
  split
  · exact .inl rfl
  · exact .inr rfl

theorem laneMask_eq (nj : Bool) (a b : Word) :
    laneMask nj a b =
      if f32Ge (flushIn nj a) (flushIn nj b) = true then 0xFFFFFFFF#32 else 0x00000000#32 := rfl

/-! ### The common operation, field by field -/

section
variable (rc : Bool) (vd va vb : VReg) (s : State)

@[simp] theorem vcmpge_params : (vcmpge rc vd va vb s).params = s.params := by cases rc <;> rfl
@[simp] theorem vcmpge_premises : (vcmpge rc vd va vb s).premises = s.premises := by cases rc <;> rfl
@[simp] theorem vcmpge_text : (vcmpge rc vd va vb s).text = s.text := by cases rc <;> rfl
@[simp] theorem vcmpge_mem : (vcmpge rc vd va vb s).mem = s.mem := by cases rc <;> rfl
@[simp] theorem vcmpge_vscr : (vcmpge rc vd va vb s).vscr = s.vscr := by cases rc <;> rfl

@[simp] theorem vcmpge_pc : (vcmpge rc vd va vb s).pc = (s.pc + 4) % 2 ^ s.params.pcWidth := by
  cases rc <;> rfl

/-- The destination register after the operation. -/
theorem vcmpge_readVr_dest : (vcmpge rc vd va vb s).readVr vd =
    lanes (laneMask s.vscr.nj (lane (s.readVr va) 0) (lane (s.readVr vb) 0))
      (laneMask s.vscr.nj (lane (s.readVr va) 1) (lane (s.readVr vb) 1))
      (laneMask s.vscr.nj (lane (s.readVr va) 2) (lane (s.readVr vb) 2))
      (laneMask s.vscr.nj (lane (s.readVr va) 3) (lane (s.readVr vb) 3)) := by
  cases rc <;> simp [vcmpge]

/-- Every lane of the destination register is the mask of that lane of the sources. -/
theorem vcmpge_lane_dest (i : Fin 4) : lane ((vcmpge rc vd va vb s).readVr vd) i =
    laneMask s.vscr.nj (lane (s.readVr va) i) (lane (s.readVr vb) i) := by
  rw [vcmpge_readVr_dest]
  fin_cases i
  · exact lane_lanes_zero ..
  · exact lane_lanes_one ..
  · exact lane_lanes_two ..
  · exact lane_lanes_three ..

theorem vcmpge_readVr_of_ne {n : VReg} (h : n ≠ vd) : (vcmpge rc vd va vb s).readVr n = s.readVr n := by
  cases rc <;> simp [vcmpge, State.readVr_writeVr_of_ne, h]

/-- `CR6` after the operation, from the lanes the destination then holds. -/
theorem vcmpge_cr6 : (vcmpge rc vd va vb s).cr6 =
    if rc = true then
      cr6FromMask (lane ((vcmpge rc vd va vb s).readVr vd) 0) (lane ((vcmpge rc vd va vb s).readVr vd) 1)
        (lane ((vcmpge rc vd va vb s).readVr vd) 2) (lane ((vcmpge rc vd va vb s).readVr vd) 3)
    else s.cr6 := by
  simp only [vcmpge_lane_dest]
  cases rc <;> rfl

end

/-! ### What `exec` and `step` can answer -/

/-- `exec` answers the common operation on the instruction's operands, for every instruction. -/
theorem exec_eq_vcmpge (i : Instr) (s : State) :
    exec i s = .next (vcmpge i.isRecord i.dest i.srcA i.srcB s) := by
  cases i <;> rfl

/-- When `step` answers a next state, the premises hold, fetch gave a word that decodes to an
instruction, and the state is that instruction's. -/
theorem step_eq_next_iff (s t : State) :
    step s = .next t ↔ s.premises.vmxEnabled = true ∧ s.premises.noAsync = true ∧
      ∃ w i, s.fetch = .ok w ∧ decodeWord s.params.rcBit w = .instr i ∧ exec i s = .next t := by
  unfold step
  cases hv : s.premises.vmxEnabled with
  | false => simp
  | true =>
    cases hn : s.premises.noAsync with
    | false => simp
    | true =>
      cases hf : s.fetch with
      | error f => simp
      | ok w => cases hd : decodeWord s.params.rcBit w <;> simp [hd]

/-- Under the premises, a fetched word that decodes to an instruction is run. -/
theorem step_of_instr {s : State} {w : Word} {i : Instr} (hp : PremisesHold s) (hf : s.fetch = .ok w)
    (hd : decodeWord s.params.rcBit w = .instr i) : step s = exec i s := by
  simp [step, hp.vmxEnabled, hp.noAsync, hf, hd]

/-- Under the premises, a fetched word that is out of scope is refused. -/
theorem step_of_notInScope {s : State} {w v : Word} (hp : PremisesHold s) (hf : s.fetch = .ok w)
    (hd : decodeWord s.params.rcBit w = .notInScope v) : step s = .refused (.notInScope s.pc v) := by
  simp [step, hp.vmxEnabled, hp.noAsync, hf, hd]

/-- Under the premises, a stop of fetch is the stop of the step. -/
theorem step_of_fetch_error {s : State} {f : Fault} (hp : PremisesHold s) (hf : s.fetch = .error f) :
    step s = .fault f := by
  simp [step, hp.vmxEnabled, hp.noAsync, hf]

end Sys2Proof.Machine
end

