-- ==== Sys2Proof/Laws/Float.lean ====
section
/-! SUPPORT. The parts of a lane as numbers, and the classes, the flush and the comparison in terms of
them, so that proofs about lanes come down to arithmetic. -/

namespace Sys2Proof.Machine

/-! ### The parts as numbers -/

theorem f32Mag_toNat (x : Word) : (f32Mag x).toNat = x.toNat % 2 ^ 31 := by
  simp [f32Mag]

theorem f32Exp_toNat (x : Word) : (f32Exp x).toNat = (f32Mag x).toNat / 2 ^ 23 := by
  rw [f32Mag_toNat]
  simp only [f32Exp, BitVec.extractLsb'_toNat, Nat.shiftRight_eq_div_pow]
  omega

theorem f32Frac_toNat (x : Word) : (f32Frac x).toNat = (f32Mag x).toNat % 2 ^ 23 := by
  rw [f32Mag_toNat]
  simp only [f32Frac, BitVec.extractLsb'_toNat, Nat.shiftRight_zero]
  omega

theorem f32Mag_lt (x : Word) : (f32Mag x).toNat < 2 ^ 31 := (f32Mag x).isLt

/-- The sign bit is clear exactly when the word is below `2 ^ 31`. -/
theorem f32Sign_eq_zero_iff (x : Word) : f32Sign x = 0#1 ↔ x.toNat < 2 ^ 31 := by
  have hx := x.isLt
  rw [← BitVec.toNat_inj]
  simp only [f32Sign, BitVec.extractLsb'_toNat, Nat.shiftRight_eq_div_pow, BitVec.toNat_ofNat]
  omega

/-- A word is its sign and its magnitude bits. -/
theorem eq_of_sign_mag {x y : Word} (hs : f32Sign x = 0#1 ↔ f32Sign y = 0#1)
    (hm : (f32Mag x).toNat = (f32Mag y).toNat) : x = y := by
  rw [f32Sign_eq_zero_iff, f32Sign_eq_zero_iff] at hs
  rw [f32Mag_toNat, f32Mag_toNat] at hm
  have hx := x.isLt
  have hy := y.isLt
  apply BitVec.eq_of_toNat_eq
  omega

/-! ### The classes -/

theorem f32Exp_eq_iff (x : Word) (e : BitVec 8) : f32Exp x = e ↔ (f32Mag x).toNat / 2 ^ 23 = e.toNat := by
  rw [← BitVec.toNat_inj, f32Exp_toNat]

theorem f32Frac_eq_zero_iff (x : Word) : f32Frac x = 0#23 ↔ (f32Mag x).toNat % 2 ^ 23 = 0 := by
  rw [← BitVec.toNat_inj, f32Frac_toNat]
  simp

/-- A NaN is a magnitude above that of infinity. -/
theorem f32IsNaN_iff (x : Word) : f32IsNaN x = true ↔ 255 * 2 ^ 23 < (f32Mag x).toNat := by
  have h := f32Mag_lt x
  simp only [f32IsNaN, Bool.and_eq_true, beq_iff_eq, bne_iff_ne, ne_eq, f32Exp_eq_iff, f32Frac_eq_zero_iff]
  simp only [BitVec.toNat_ofNat]
  omega

theorem f32IsNaN_eq_false_iff (x : Word) : f32IsNaN x = false ↔ (f32Mag x).toNat ≤ 255 * 2 ^ 23 := by
  rw [← Bool.not_eq_true, f32IsNaN_iff]
  omega

/-- A denormal is a magnitude above zero and below that of the smallest normal number. -/
theorem f32IsDenormal_iff (x : Word) :
    f32IsDenormal x = true ↔ 0 < (f32Mag x).toNat ∧ (f32Mag x).toNat < 2 ^ 23 := by
  have h := f32Mag_lt x
  simp only [f32IsDenormal, Bool.and_eq_true, beq_iff_eq, bne_iff_ne, ne_eq, f32Exp_eq_iff, f32Frac_eq_zero_iff]
  simp only [BitVec.toNat_ofNat]
  omega

/-- The class of a word by its magnitude. -/
theorem f32Class_eq (x : Word) : f32Class x =
    if (f32Mag x).toNat = 0 then .zero
    else if (f32Mag x).toNat < 2 ^ 23 then .denormal
    else if (f32Mag x).toNat < 255 * 2 ^ 23 then .normal
    else if (f32Mag x).toNat = 255 * 2 ^ 23 then .infinity
    else .nan := by
  have h := f32Mag_lt x
  simp only [f32Class, f32Exp_eq_iff, f32Frac_eq_zero_iff, BitVec.toNat_ofNat]
  split_ifs <;> first | rfl | omega

/-! ### The flush -/

theorem flushIn_false (x : Word) : flushIn false x = x := by simp [flushIn]

theorem flushIn_of_not_denormal {x : Word} (h : f32IsDenormal x = false) (nj : Bool) : flushIn nj x = x := by
  simp [flushIn, h]

/-- A flushed denormal has no magnitude and keeps its sign. -/
theorem flushIn_denormal {x : Word} (h : f32IsDenormal x = true) :
    (f32Mag (flushIn true x)).toNat = 0 ∧ (f32Sign (flushIn true x) = 0#1 ↔ f32Sign x = 0#1) := by
  have e : flushIn true x = x &&& 0x80000000#32 := by simp [flushIn, h]
  have hm : f32Mag (x &&& 0x80000000#32) = f32Mag x &&& f32Mag 0x80000000#32 := BitVec.extractLsb'_and
  have hs : f32Sign (x &&& 0x80000000#32) = f32Sign x &&& f32Sign 0x80000000#32 := BitVec.extractLsb'_and
  have zm : f32Mag 0x80000000#32 = 0#31 := by decide
  have zs : f32Sign 0x80000000#32 = BitVec.allOnes 1 := by decide
  rw [e, hm, hs, zm, zs, BitVec.and_zero, BitVec.and_allOnes]
  exact ⟨rfl, Iff.rfl⟩

/-- The magnitude of a flushed input: zero for a denormal under `NJ`, else as it was. -/
theorem f32Mag_flushIn (nj : Bool) (x : Word) : (f32Mag (flushIn nj x)).toNat =
    if nj = true ∧ (f32Mag x).toNat < 2 ^ 23 then 0 else (f32Mag x).toNat := by
  cases nj with
  | false => simp [flushIn_false]
  | true =>
    cases hd : f32IsDenormal x with
    | true => rw [(flushIn_denormal hd).1, if_pos ⟨rfl, ((f32IsDenormal_iff x).mp hd).2⟩]
    | false =>
      have h := (f32IsDenormal_iff x).not.mp (by simp [hd])
      rw [flushIn_of_not_denormal hd]
      split_ifs <;> omega

/-- The flush keeps the sign. -/
theorem f32Sign_flushIn (nj : Bool) (x : Word) : f32Sign (flushIn nj x) = 0#1 ↔ f32Sign x = 0#1 := by
  cases nj with
  | false => rw [flushIn_false]
  | true =>
    cases hd : f32IsDenormal x with
    | true => exact (flushIn_denormal hd).2
    | false => rw [flushIn_of_not_denormal hd]

/-- The flush makes no NaN and loses none. -/
theorem f32IsNaN_flushIn (nj : Bool) (x : Word) : f32IsNaN (flushIn nj x) = f32IsNaN x := by
  rw [Bool.eq_iff_iff, f32IsNaN_iff, f32IsNaN_iff, f32Mag_flushIn]
  split_ifs <;> omega

/-! ### The comparison -/

/-- `f32_ge` is true exactly when neither operand is a NaN and the integers are so ordered (R52). -/
theorem f32Ge_iff (a b : Word) :
    f32Ge a b = true ↔ f32IsNaN a = false ∧ f32IsNaN b = false ∧ f32Ord b ≤ f32Ord a := by
  unfold f32Ge
  cases f32IsNaN a <;> cases f32IsNaN b <;> simp

theorem f32Ge_of_nan {a b : Word} (h : f32IsNaN a = true ∨ f32IsNaN b = true) : f32Ge a b = false := by
  unfold f32Ge
  rw [if_pos h]

/-- `ord` of a word with a clear sign bit. -/
theorem f32Ord_of_pos {x : Word} (h : f32Sign x = 0#1) : f32Ord x = (f32Mag x).toNat := by
  simp [f32Ord, h]

/-- `ord` of a word with a set sign bit. -/
theorem f32Ord_of_neg {x : Word} (h : f32Sign x ≠ 0#1) : f32Ord x = -((f32Mag x).toNat : Int) := by
  simp [f32Ord, h]

end Sys2Proof.Machine
end

