-- ==== Sys2Proof/Laws/PerInstr.lean ====
section
/-! SUPPORT. Laws stated of every instruction, one lemma for each constructor.

`OpcodeBits`: the encoded word of an instruction has, under the mask of its row of the opcode map, the
value of that row (spec/30_encoding.md R35, R36), for every operand and either place of `Rc`. -/

namespace Sys2Proof.Laws.OpcodeBits

/-- The fixed bits of an encoded instruction are those of its row. -/
def Statement (i : Instr) : Prop := ∀ rc : RcBit, encode rc i &&& i.opcodeMask = i.opcodeMatch rc

/-- The fixed bits of a VC-form word: the mask takes out the operand fields. -/
theorem encodeVc_and (vd va vb : VReg) (rc : BitVec 1) :
    encodeVc vd va vb rc &&& 0xFC0007FF#32 = 4#6 ++ 0#15 ++ rc ++ 454#10 := by
  unfold encodeVc
  apply BitVec.eq_of_getLsbD_eq
  intro i hi
  simp only [BitVec.getLsbD_and, BitVec.getLsbD_append]
  interval_cases i <;> simp

/-- The fixed bits of a VX128_R-form word with `Rc` at bit 27. -/
theorem encodeVx128_bit27_and (vd va vb : VReg) (rc : BitVec 1) :
    encodeVx128 .bit27 vd va vb rc &&& 0xFC0003D0#32 = 6#6 ++ 0#16 ++ 2#4 ++ 0#1 ++ rc ++ 0#4 := by
  unfold encodeVx128
  apply BitVec.eq_of_getLsbD_eq
  intro i hi
  simp only [BitVec.getLsbD_and, BitVec.getLsbD_append]
  interval_cases i <;> simp

/-- The fixed bits of a VX128_R-form word with `Rc` at bit 25. -/
theorem encodeVx128_bit25_and (vd va vb : VReg) (rc : BitVec 1) :
    encodeVx128 .bit25 vd va vb rc &&& 0xFC0003D0#32 = 6#6 ++ 0#16 ++ 1#3 ++ rc ++ 0#6 := by
  unfold encodeVx128
  apply BitVec.eq_of_getLsbD_eq
  intro i hi
  simp only [BitVec.getLsbD_and, BitVec.getLsbD_append]
  interval_cases i <;> simp

theorem vcmpgefp (vd va vb : VReg) : Statement (.vcmpgefp vd va vb) := by
  intro _
  exact (encodeVc_and vd va vb 0#1).trans (show _ = 0x100001C6#32 by decide)

theorem vcmpgefpRc (vd va vb : VReg) : Statement (.vcmpgefpRc vd va vb) := by
  intro _
  exact (encodeVc_and vd va vb 1#1).trans (show _ = 0x100005C6#32 by decide)

theorem vcmpgefp128 (vd va vb : VReg) : Statement (.vcmpgefp128 vd va vb) := by
  intro rc
  cases rc with
  | bit27 => exact (encodeVx128_bit27_and vd va vb 0#1).trans (show _ = 0x18000080#32 by decide)
  | bit25 => exact (encodeVx128_bit25_and vd va vb 0#1).trans (show _ = 0x18000080#32 by decide)

theorem vcmpgefp128Rc (vd va vb : VReg) : Statement (.vcmpgefp128Rc vd va vb) := by
  intro rc
  cases rc with
  | bit27 => exact (encodeVx128_bit27_and vd va vb 1#1).trans (show _ = 0x18000090#32 by decide)
  | bit25 => exact (encodeVx128_bit25_and vd va vb 1#1).trans (show _ = 0x180000C0#32 by decide)

end Sys2Proof.Laws.OpcodeBits
end

