-- ==== Sys2Proof/Laws/Run.lean ====
section
/-! SUPPORT. Runs of several steps: one step more at the front, two runs end to end, and the induction
packaged once. -/

namespace Sys2Proof.Machine

@[simp] theorem run_zero (s : State) : run 0 s = .next s := rfl

theorem run_succ_of_next {s t : State} (h : step s = .next t) (n : Nat) : run (n + 1) s = run n t := by
  simp [run, h]

theorem run_succ_of_fault {s : State} {f : Fault} (h : step s = .fault f) (n : Nat) : run (n + 1) s = .fault f := by
  simp [run, h]

theorem run_succ_of_refused {s : State} {r : Refusal} (h : step s = .refused r) (n : Nat) :
    run (n + 1) s = .refused r := by
  simp [run, h]

/-- A run that answers a next state after at least one step took a step first. -/
theorem run_succ_eq_next_iff (n : Nat) (s u : State) :
    run (n + 1) s = .next u ↔ ∃ t, step s = .next t ∧ run n t = .next u := by
  cases h : step s <;> simp [run, h]

/-- A run that reaches a state goes on from there. -/
theorem run_add {n : Nat} {s t : State} (h : run n s = .next t) (k : Nat) : run (n + k) s = run k t := by
  induction n generalizing s with
  | zero =>
    cases h
    rw [Nat.zero_add]
  | succ n ih =>
    obtain ⟨u, hs, hu⟩ := (run_succ_eq_next_iff n s t).mp h
    rw [show n + 1 + k = (n + k) + 1 by omega, run_succ_of_next hs]
    exact ih hu

/-- What holds at the start and is kept by every step holds after every run. -/
theorem run_induction {P : State → Prop} (hstep : ∀ s t, P s → step s = .next t → P t) {n : Nat} {s u : State}
    (hs : P s) (h : run n s = .next u) : P u := by
  induction n generalizing s with
  | zero =>
    cases h
    exact hs
  | succ n ih =>
    obtain ⟨t, ht, hu⟩ := (run_succ_eq_next_iff n s u).mp h
    exact ih (hstep s t hs ht) hu

section
variable (M : Host.Core) (n : Nat) (s : M.State)

theorem hostRun_succ_of_next {t : M.State} (h : M.step s = .next t) : M.run (n + 1) s = M.run n t := by
  simp [Host.Core.run, h]

theorem hostRun_succ_of_fault {f : M.Fault} (h : M.step s = .fault f) : M.run (n + 1) s = .fault f := by
  simp [Host.Core.run, h]

theorem hostRun_succ_of_refused {r : M.Refusal} (h : M.step s = .refused r) : M.run (n + 1) s = .refused r := by
  simp [Host.Core.run, h]

end

/-- `run` is the host's `run` of this machine. -/
theorem run_eq_core_run (n : Nat) (s : State) : run n s = Host.Core.run Sys2Proof.core n s := by
  induction n generalizing s with
  | zero => rfl
  | succ n ih =>
    cases h : step s with
    | next t => exact (run_succ_of_next h n).trans ((ih t).trans (hostRun_succ_of_next Sys2Proof.core n s h).symm)
    | fault f => exact (run_succ_of_fault h n).trans (hostRun_succ_of_fault Sys2Proof.core n s h).symm
    | refused r => exact (run_succ_of_refused h n).trans (hostRun_succ_of_refused Sys2Proof.core n s h).symm

end Sys2Proof.Machine
end

