-- ==== Sys2Proof/Tests/Slice0.lean ====
section
/-! SUPPORT. The model's own tests, with expected results taken from spec/95_test_vectors.md or worked out
by hand from the rule named, and the witnesses: for each statement with hypotheses, values that meet
them together. -/

namespace Sys2Proof.Tests

open Sys2Proof.Machine

/-! ### Well-formedness: each of the three checks of the VC form refuses a number above 31 -/

theorem test_wf_vd : (Instr.vcmpgefp 32 0 0).wf = false ∧ (Instr.vcmpgefpRc 32 0 0).wf = false := by decide
theorem test_wf_va : (Instr.vcmpgefp 0 32 0).wf = false ∧ (Instr.vcmpgefpRc 0 127 0).wf = false := by decide
theorem test_wf_vb : (Instr.vcmpgefp 0 0 32).wf = false ∧ (Instr.vcmpgefpRc 0 0 64).wf = false := by decide

theorem test_wf_legal : (Instr.vcmpgefp 31 31 31).wf = true ∧ (Instr.vcmpgefpRc 0 0 0).wf = true ∧
    (Instr.vcmpgefp128 127 127 127).wf = true ∧ (Instr.vcmpgefp128Rc 32 64 96).wf = true := by decide

theorem test_params_wf : ({ Params.default with pcWidth := 2 }).wf = false ∧
    ({ Params.default with pcWidth := 3 }).wf = true := by decide

/-! ### Decoding, words written out bit by bit (spec/95_test_vectors.md V1, V2) -/

/-- Fields `OPCD VRT VRA VRB Rc XO`. -/
theorem test_decode_vcmpgefp :
    decodeWord .bit27 0b000100_00011_00001_00010_0_0111000110#32 = .instr (.vcmpgefp 3 1 2) := by decide

theorem test_decode_vcmpgefpRc :
    decodeWord .bit27 0b000100_11111_00000_11111_1_0111000110#32 = .instr (.vcmpgefpRc 31 0 31) := by decide

/-- Fields `OPCD VD128l VA128l VB128l VA128H XO VA128h Rc VD128h VB128h`. -/
theorem test_decode_vcmpgefp128 :
    decodeWord .bit27 0b000110_00110_00101_00001_1_0010_1_0_10_01#32 = .instr (.vcmpgefp128 70 101 33) := by decide

theorem test_decode_vcmpgefp128Rc :
    decodeWord .bit27 0b000110_00000_00000_00000_1_0010_0_1_11_10#32 = .instr (.vcmpgefp128Rc 96 64 64) := by decide

/-- Each high piece of a register number on its own (V2: `v32`, `v64` in each position). -/
theorem test_decode_high_pieces :
    decodeWord .bit27 0x18000084#32 = .instr (.vcmpgefp128 32 0 0) ∧
    decodeWord .bit27 0x18000088#32 = .instr (.vcmpgefp128 64 0 0) ∧
    decodeWord .bit27 0x180000A0#32 = .instr (.vcmpgefp128 0 32 0) ∧
    decodeWord .bit27 0x18000480#32 = .instr (.vcmpgefp128 0 64 0) ∧
    decodeWord .bit27 0x18000081#32 = .instr (.vcmpgefp128 0 0 32) ∧
    decodeWord .bit27 0x18000082#32 = .instr (.vcmpgefp128 0 0 64) := by decide

/-- The last column of V2: the record form with `VX128R_RC_BIT` 25. -/
theorem test_decode_rc_bit_25 :
    decodeWord .bit25 0x180004CE#32 = .instr (.vcmpgefp128Rc 96 64 64) ∧
    decodeWord .bit25 0x1BFFFCEF#32 = .instr (.vcmpgefp128Rc 127 127 127) ∧
    decodeWord .bit25 0x18000090#32 = .notInScope 0x18000090#32 := by decide

/-- The words V3 lists as refused. -/
theorem test_decode_refused :
    [0x100001C7#32, 0x100001C4#32, 0x100003C6#32, 0x140001C6#32, 0x18000000#32, 0x18000100#32, 0x180000C0#32,
      0x180000D0#32, 0x1C000080#32, 0x60000000#32, 0x00000000#32].all
      (fun w => decodeWord .bit27 w = .notInScope w) = true := by decide

theorem test_encode :
    encode .bit27 (.vcmpgefp 5 5 5) = 0x10A529C6#32 ∧ encode .bit27 (.vcmpgefpRc 31 31 31) = 0x13FFFDC6#32 ∧
    encode .bit27 (.vcmpgefp128 64 64 127) = 0x1800FC8B#32 ∧ encode .bit27 (.vcmpgefp128Rc 127 127 127) = 0x1BFFFCBF#32 ∧
    encode .bit25 (.vcmpgefp128Rc 9 9 9) = 0x192948C0#32 := by decide

/-- The host's numbering, and the bytes in big-endian order (R21). -/
theorem test_decode_bytes :
    decodeTableWord 32 0x106115C6 = some (.vcmpgefpRc 3 1 2) ∧ decodeTableWord 32 0x60000000 = none ∧
    decodeBytes .bit27 [0x10#8, 0x61#8, 0x11#8, 0xC6#8, 0xAA#8] = .word (.instr (.vcmpgefp 3 1 2)) [0xAA#8] ∧
    decodeBytes .bit27 [0x10#8, 0x61#8, 0x11#8] = .truncated 3 := by decide

/-! ### The lane comparison: every row of V4, as `(a, b, with NJ = 0, with NJ = 1)` -/

/-- Whether a row of V4 is what the model gives. -/
def laneRow (r : Word × Word × Bool × Bool) : Bool :=
  f32Ge (flushIn false r.1) (flushIn false r.2.1) == r.2.2.1 &&
    f32Ge (flushIn true r.1) (flushIn true r.2.1) == r.2.2.2

theorem test_lanes_ordinary :
    [(0x3F800000#32, 0x3F800000#32, true, true), (0x40000000#32, 0x3F800000#32, true, true),
      (0x3F800000#32, 0x40000000#32, false, false), (0xBF800000#32, 0x3F800000#32, false, false),
      (0x3F800000#32, 0xBF800000#32, true, true), (0xC0000000#32, 0xBF800000#32, false, false),
      (0xBF800000#32, 0xC0000000#32, true, true), (0x00000000#32, 0x80000000#32, true, true),
      (0x80000000#32, 0x00000000#32, true, true), (0x00000000#32, 0x00000000#32, true, true),
      (0x80000000#32, 0x80000000#32, true, true)].all laneRow = true := by decide

theorem test_lanes_infinities :
    [(0x7F800000#32, 0x7F7FFFFF#32, true, true), (0x7F7FFFFF#32, 0x7F800000#32, false, false),
      (0x7F800000#32, 0x7F800000#32, true, true), (0xFF800000#32, 0xFF800000#32, true, true),
      (0xFF800000#32, 0xFF7FFFFF#32, false, false), (0xFF7FFFFF#32, 0xFF800000#32, true, true),
      (0x7F800000#32, 0xFF800000#32, true, true), (0xFF800000#32, 0x7F800000#32, false, false)].all laneRow = true := by
  decide

theorem test_lanes_nans :
    [(0x7FC00000#32, 0x3F800000#32, false, false), (0x3F800000#32, 0x7FC00000#32, false, false),
      (0x7FC00000#32, 0x7FC00000#32, false, false), (0x7F800001#32, 0x00000000#32, false, false),
      (0x00000000#32, 0x7F800001#32, false, false), (0xFFC00000#32, 0xFF800000#32, false, false),
      (0xFFFFFFFF#32, 0xFFFFFFFF#32, false, false), (0x7F800000#32, 0x7FC00000#32, false, false),
      (0x00000001#32, 0x7FC00000#32, false, false)].all laneRow = true := by decide

theorem test_lanes_denormals :
    [(0x00000001#32, 0x00000000#32, true, true), (0x00000000#32, 0x00000001#32, false, true),
      (0x80000001#32, 0x00000000#32, false, true), (0x00000000#32, 0x80000001#32, true, true),
      (0x80000001#32, 0x80000000#32, false, true), (0x00000001#32, 0x00000002#32, false, true),
      (0x00000002#32, 0x00000001#32, true, true), (0x80000002#32, 0x80000001#32, false, true),
      (0x80000001#32, 0x80000002#32, true, true), (0x80000001#32, 0x00000001#32, false, true),
      (0x00000001#32, 0x80000001#32, true, true), (0x007FFFFF#32, 0x00800000#32, false, false),
      (0x00800000#32, 0x007FFFFF#32, true, true), (0x807FFFFF#32, 0x80800000#32, true, true),
      (0x80800000#32, 0x807FFFFF#32, false, false), (0x007FFFFF#32, 0x80800000#32, true, true)].all laneRow = true := by
  decide

/-- Values by hand from R50: 1.0 is `2^149` units of `2^(-149)`, the least denormal one unit. -/
theorem test_values :
    f32Value 0x3F800000#32 = .finite (2 ^ 149) ∧ f32Value 0xC0000000#32 = .finite (-2 ^ 150) ∧
    f32Value 0x80000001#32 = .finite (-1) ∧ f32Value 0x00800000#32 = .finite (2 ^ 23) ∧
    f32Value 0x80000000#32 = .finite 0 ∧ f32Value 0xFF800000#32 = .negInf ∧ f32Value 0x7F800001#32 = .nan := by
  decide

/-! ### The instructions: rows of V5; `CR6` before is `0b0101` in each -/

/-- A state with the given registers, `NJ`, and program. -/
def mk (nj : Bool) (regs : List (VReg × Vec)) (words : List Word) : State :=
  regs.foldl (fun s r => s.writeVr r.1 r.2)
    (State.launch Params.default (Vector.replicate 128 0#128) 0b0101#4 { nj := nj, sat := false } 0x1000 words)

/-- A vector register and `CR6` of a next state. -/
def seen (n : VReg) : Host.Outcome State Fault Refusal → Option (Vec × Cr6)
  | .next t => some (t.readVr n, t.cr6)
  | .fault _ => none
  | .refused _ => none

/-- The registers of V5 row 1. -/
def row1 : List (VReg × Vec) :=
  [(1, lanes 0x3F800000#32 0x40000000#32 0x7FC00000#32 0x80000000#32),
    (2, lanes 0x3F800000#32 0x40400000#32 0x3F800000#32 0x00000000#32)]

/-- The registers of V5 row 4. -/
def row4 : List (VReg × Vec) :=
  [(101, lanes 0x7F800000#32 0xFF800000#32 0x00000001#32 0xBF800000#32),
    (33, lanes 0x7F7FFFFF#32 0xFF800000#32 0x00000002#32 0x80000001#32)]

/-- Row 1. -/
theorem test_vcmpgefp : seen 3 (exec (.vcmpgefp 3 1 2) (mk true row1 [])) =
    some (lanes 0xFFFFFFFF#32 0#32 0#32 0xFFFFFFFF#32, 0b0101#4) := by decide

/-- Row 6: source and destination are one register. -/
theorem test_vcmpgefp_in_place :
    seen 5 (exec (.vcmpgefp 5 5 5) (mk true [(5, lanes 0x3F800000#32 0x7FC00000#32 0#32 0xFF800000#32)] [])) =
      some (lanes 0xFFFFFFFF#32 0#32 0xFFFFFFFF#32 0xFFFFFFFF#32, 0b0101#4) := by decide

/-- Row 2: mixed. -/
theorem test_vcmpgefpRc : seen 3 (exec (.vcmpgefpRc 3 1 2) (mk true row1 [])) =
    some (lanes 0xFFFFFFFF#32 0#32 0#32 0xFFFFFFFF#32, 0b0000#4) := by decide

/-- Row 9: all true. -/
theorem test_vcmpgefpRc_all_true : seen 31 (exec (.vcmpgefpRc 31 31 31) (mk true [(31, 0#128)] [])) =
    some (BitVec.allOnes 128, 0b1000#4) := by decide

/-- Row 4 with `NJ = 1`. -/
theorem test_vcmpgefp128 : seen 70 (exec (.vcmpgefp128 70 101 33) (mk true row4 [])) =
    some (lanes 0xFFFFFFFF#32 0xFFFFFFFF#32 0xFFFFFFFF#32 0#32, 0b0101#4) := by decide

/-- Row 4 with `NJ = 0`. -/
theorem test_vcmpgefp128_nj_clear : seen 70 (exec (.vcmpgefp128 70 101 33) (mk false row4 [])) =
    some (lanes 0xFFFFFFFF#32 0xFFFFFFFF#32 0#32 0#32, 0b0101#4) := by decide

/-- Row 5: four NaNs, all false. -/
theorem test_vcmpgefp128Rc : seen 70 (exec (.vcmpgefp128Rc 70 101 33)
      (mk true [(101, lanes 0x7FC00000#32 0x7F800001#32 0xFFC00000#32 0xFFFFFFFF#32),
        (33, lanes 0#32 0x3F800000#32 0xFF800000#32 0x7F800000#32)] [])) =
    some (0#128, 0b0010#4) := by decide

/-- Row 7: a mask is complemented in place. -/
theorem test_vcmpgefp128Rc_mask :
    seen 9 (exec (.vcmpgefp128Rc 9 9 9) (mk true [(9, lanes 0xFFFFFFFF#32 0#32 0#32 0xFFFFFFFF#32)] [])) =
      some (lanes 0#32 0xFFFFFFFF#32 0xFFFFFFFF#32 0#32, 0b0000#4) := by decide

/-! ### The step (R84) -/

/-- Two in-scope words at base `0x1000` (P1), with V5's registers. -/
def prog : State := mk true row1 [0x106009C6#32, 0x108205C6#32]

/-- An in-scope word, then the out-of-scope word of P4. -/
def progP4 : State := mk true row1 [0x10A529C6#32, 0x60000000#32]

/-- The `pc` after a step. -/
def pcAfter : Host.Outcome State Fault Refusal → Option Nat
  | .next t => some t.pc
  | .fault _ => none
  | .refused _ => none

theorem test_step_runs : pcAfter (step prog) = some 0x1004 := by decide

theorem test_step_faults :
    (match step { prog with pc := 0x1008 } with | .fault f => some f | _ => none) = some (.endOfRun 0x1008) ∧
    (match step { prog with pc := 0x1002 } with | .fault f => some f | _ => none) = some (.misalignedPc 0x1002) ∧
    (match step { prog with pc := 0x0FFC } with | .fault f => some f | _ => none) = some (.outsideProgram 0x0FFC) ∧
    (match step { prog with mem := [] } with | .fault f => some f | _ => none) = some (.textNotLoaded 0x1000) ∧
    (match step State.reset with | .fault f => some f | _ => none) = some (.endOfRun 0) := by decide

/-- P4, step 2. -/
theorem test_step_refuses :
    (match step { progP4 with pc := 0x1004 } with | .refused r => some r | _ => none) =
      some (.notInScope 0x1004 0x60000000#32) := by decide

/-- `pc` wraps at the top of the address space (R13): a program of one word at the last address. -/
theorem test_step_wraps :
    pcAfter (step (State.launch { Params.default with pcWidth := 8 } (Vector.replicate 128 0#128) 0#4
      { nj := true, sat := false } 0xFC [0x100001C6#32, 0x100001C6#32])) = some 0 := by decide

/-- A word placed after reset is the next one run. -/
theorem test_withFetchWord : pcAfter (step (State.reset.withFetchWord 32 0x18C50CB9)) = some 4 := by decide

theorem test_memory_canonical :
    Memory.write (Memory.write (Memory.write [] 5 1#8) 3 2#8) 5 7#8 = [(3, 2#8), (5, 7#8)] ∧
    Memory.wf [(5, 1#8), (3, 2#8)] = false ∧ Memory.wf [(3, 1#8), (3, 2#8)] = false := by decide

/-! ### Witnesses: values that meet the hypotheses of each statement -/

theorem witness_VcRegisterNumbers :
    decodeWord .bit27 0x101F01C6#32 = .instr (.vcmpgefp 0 31 0) ∧
    decodeWord .bit27 0x13E0FDC6#32 = .instr (.vcmpgefpRc 31 0 31) := by decide

theorem witness_Vx128RegisterNumbers :
    decodeWord .bit27 0x1BFFFCAF#32 = .instr (.vcmpgefp128 127 127 127) ∧
    decodeWord .bit27 0x18000090#32 = .instr (.vcmpgefp128Rc 0 0 0) := by decide

theorem witness_DecoderIsTheSpecsDecoder :
    0x13FFFDC6#32 &&& 0xFC0003FF#32 = 0x100001C6#32 ∧ 0x1BFFFCBF#32 &&& 0xFC0003C0#32 = 0x18000080#32 ∧
    0x60000000#32 &&& 0xFC0003FF#32 ≠ 0x100001C6#32 ∧ 0x60000000#32 &&& 0xFC0003C0#32 ≠ 0x18000080#32 ∧
    decodeWord .bit27 0x13FFFDC6#32 = .instr (.vcmpgefpRc 31 31 31) := by decide

theorem witness_EncoderIsTheSpecsFormula : (31 : VReg).toNat < 32 ∧ (0 : VReg).toNat < 32 := by decide

theorem witness_DecodeOfEncode :
    (Instr.vcmpgefp 31 0 31).wf = true ∧ (Instr.vcmpgefpRc 31 31 31).wf = true ∧
    (Instr.vcmpgefp128 127 0 127).wf = true ∧ (Instr.vcmpgefp128Rc 127 127 127).wf = true := by decide

theorem witness_EncodeOfDecode :
    decodeWord .bit27 0x18C50CB9#32 = .instr (.vcmpgefp128Rc 70 101 33) ∧
    decodeWord .bit25 0x18C50CE9#32 = .instr (.vcmpgefp128Rc 70 101 33) := by decide

theorem witness_RcBitAffectsOnlyTheVx128RecordForm :
    (∀ vd va vb, Instr.vcmpgefp128 127 127 127 ≠ .vcmpgefp128Rc vd va vb) ∧
    decodeWord .bit27 0x1BFFFCAF#32 = .instr (.vcmpgefp128 127 127 127) ∧
    decodeWord .bit25 0x1BFFFCAF#32 = .instr (.vcmpgefp128 127 127 127) :=
  ⟨fun _ _ _ h => Instr.noConfusion h, by decide, by decide⟩

theorem witness_LaneClassesAndValues :
    f32Class 0x80000000#32 = .zero ∧ f32Class 0x007FFFFF#32 = .denormal ∧ f32Class 0x00800000#32 = .normal ∧
    f32Class 0x7F7FFFFF#32 = .normal ∧ f32Class 0xFF800000#32 = .infinity ∧ f32Class 0x7F800001#32 = .nan := by
  decide

theorem witness_DenormalInputFlush :
    f32IsDenormal 0x007FFFFF#32 = true ∧ f32IsDenormal 0x80000001#32 = true ∧ f32IsDenormal 0x00800000#32 = false ∧
    (Instr.vcmpgefp 3 1 2).srcA ≠ (Instr.vcmpgefp 3 1 2).dest ∧
    (Instr.vcmpgefp 3 1 2).srcB ≠ (Instr.vcmpgefp 3 1 2).dest := by decide

theorem witness_LaneCompareConsequences : f32IsNaN 0x7F800000#32 = false ∧ f32IsNaN 0xFF800000#32 = false := by
  decide

/-- Two states that differ in other lanes and registers and agree on lane 0 of the sources and on `NJ`. -/
theorem witness_LaneMaskPerLane :
    (∃ t, exec (.vcmpgefp128Rc 70 5 6) (mk true [(5, lanes 0x3F800000#32 1#32 2#32 3#32),
      (6, lanes 0x3F800000#32 0#32 0#32 0#32)] []) = .next t) ∧
    lane ((mk true [(5, lanes 0x3F800000#32 1#32 2#32 3#32), (6, lanes 0x3F800000#32 0#32 0#32 0#32)] []).readVr 5) 0 =
      lane ((mk true row1 []).readVr 1) 0 ∧
    lane ((mk true [(5, lanes 0x3F800000#32 1#32 2#32 3#32), (6, lanes 0x3F800000#32 0#32 0#32 0#32)] []).readVr 6) 0 =
      lane ((mk true row1 []).readVr 2) 0 :=
  ⟨⟨_, rfl⟩, by decide, by decide⟩

theorem witness_VcmpgefpInstruction :
    0x106111C6#32 &&& 0xFC0007FF#32 = 0x100001C6#32 ∧ (mk true row1 []).vscr.nj = true ∧
    (mk true row1 []).readVr 1 = lanes 0x3F800000#32 0x40000000#32 0x7FC00000#32 0x80000000#32 ∧
    (mk true row1 []).readVr 2 = lanes 0x3F800000#32 0x40400000#32 0x3F800000#32 0x00000000#32 := by decide

/-- V5 row 3's registers: every lane 1.0. -/
def ones : List (VReg × Vec) :=
  [(1, lanes 0x3F800000#32 0x3F800000#32 0x3F800000#32 0x3F800000#32),
    (2, lanes 0x3F800000#32 0x3F800000#32 0x3F800000#32 0x3F800000#32)]

theorem witness_VcmpgefpRecordInstruction :
    0x13FFFDC6#32 &&& 0xFC0007FF#32 = 0x100005C6#32 ∧
    (mk true row1 []).vscr.nj = true ∧
    (mk true row1 []).readVr 1 = lanes 0x3F800000#32 0x40000000#32 0x7FC00000#32 0x80000000#32 ∧
    (mk true row1 []).readVr 2 = lanes 0x3F800000#32 0x40400000#32 0x3F800000#32 0x00000000#32 ∧
    (mk true ones []).vscr.nj = true ∧
    (mk true ones []).readVr 1 = lanes 0x3F800000#32 0x3F800000#32 0x3F800000#32 0x3F800000#32 ∧
    (mk true ones []).readVr 2 = lanes 0x3F800000#32 0x3F800000#32 0x3F800000#32 0x3F800000#32 := by decide

theorem witness_Vcmpgefp128Instruction :
    0x1BFFFCAF#32 &&& 0xFC0003D0#32 = 0x18000080#32 ∧
    (mk true row4 []).readVr 101 = lanes 0x7F800000#32 0xFF800000#32 0x00000001#32 0xBF800000#32 ∧
    (mk true row4 []).readVr 33 = lanes 0x7F7FFFFF#32 0xFF800000#32 0x00000002#32 0x80000001#32 ∧
    (mk false row4 []).readVr 101 = lanes 0x7F800000#32 0xFF800000#32 0x00000001#32 0xBF800000#32 ∧
    (mk false row4 []).readVr 33 = lanes 0x7F7FFFFF#32 0xFF800000#32 0x00000002#32 0x80000001#32 := by decide

theorem witness_Vcmpgefp128RecordInstruction :
    0x1BFFFCBF#32 &&& 0xFC0003D0#32 = 0x18000090#32 ∧
    (mk true [(101, lanes 0x7FC00000#32 0x7F800001#32 0xFFC00000#32 0xFFFFFFFF#32)] []).vscr.nj = true ∧
    (mk true [(101, lanes 0x7FC00000#32 0x7F800001#32 0xFFC00000#32 0xFFFFFFFF#32)] []).readVr 101 =
      lanes 0x7FC00000#32 0x7F800001#32 0xFFC00000#32 0xFFFFFFFF#32 := by decide

theorem witness_InstructionFrame :
    (∃ t, exec (.vcmpgefp 3 1 2) (mk true row1 []) = .next t) ∧ (0 : VReg) ≠ (Instr.vcmpgefp 3 1 2).dest ∧
    (127 : VReg) ≠ (Instr.vcmpgefp 3 1 2).dest ∧ (Instr.vcmpgefp 3 1 2).isRecord = false :=
  ⟨⟨_, rfl⟩, by decide, by decide, rfl⟩

theorem witness_VectorRegisterFile : (127 : VReg) ≠ 0 := by decide

theorem witness_Cr6InTheConditionRegister :
    (Instr.vcmpgefpRc 3 1 2).isRecord = true ∧ (Instr.vcmpgefp128Rc 3 1 2).isRecord = true := by decide

/-- A NaN in source A in lane 2, and in source B in lane 2. -/
theorem witness_NanLaneIsFalse :
    f32IsNaN (lane ((mk true row1 []).readVr (Instr.vcmpgefp 3 1 2).srcA) 2) = true ∧
    f32IsNaN (lane ((mk true row1 []).readVr (Instr.vcmpgefp 3 2 1).srcB) 2) = true := by decide

theorem witness_ZerosAndInfinities :
    f32Class 0x00000000#32 = .zero ∧ f32Class 0x80000000#32 = .zero ∧ f32IsNaN 0xFF800000#32 = false := by decide

theorem witness_DenormalsCompareAsZero :
    f32IsDenormal 0x007FFFFF#32 = true ∧ f32IsDenormal 0x80000001#32 = true ∧ f32Class 0x80000000#32 = .zero ∧
    f32Class 0x00800000#32 = .normal := by decide

theorem witness_FlushOnlyTurnsLanesTrue :
    f32Ge (flushIn false 0x00000002#32) (flushIn false 0x00000001#32) = true ∧
    f32IsDenormal 0x80000001#32 = true ∧ f32Sign 0x80000001#32 = 1#1 ∧ f32IsDenormal 0x00000001#32 = true ∧
    f32Sign 0x00000001#32 = 0#1 ∧ f32Class 0x80000000#32 = .zero := by decide

theorem witness_SameRegisterTestsForNan :
    (Instr.vcmpgefp128Rc 70 101 101).srcA = (Instr.vcmpgefp128Rc 70 101 101).srcB ∧
    (Instr.vcmpgefp128Rc 70 101 101).isRecord = true := by decide

theorem witness_MaskInversion :
    (Instr.vcmpgefp 2 9 9).srcA = (Instr.vcmpgefp 2 9 9).srcB ∧
    ∀ k : Fin 4,
      lane ((mk true [(9, lanes 0xFFFFFFFF#32 0#32 0#32 0xFFFFFFFF#32)] []).readVr 9) k = 0xFFFFFFFF#32 ∨
      lane ((mk true [(9, lanes 0xFFFFFFFF#32 0#32 0#32 0xFFFFFFFF#32)] []).readVr 9) k = 0x00000000#32 := by decide

theorem witness_Cr6AfterRecordForm : (Instr.vcmpgefpRc 31 31 31).isRecord = true := by decide

/-- Each of the two alternatives: `NJ = 0` with a denormal lane, and `NJ = 1` with none. -/
theorem witness_SnapshotAgreesWithoutDenormals :
    (mk false row4 []).vscr.nj = false ∧ (mk true row1 []).vscr.nj = true ∧
    ∀ k : Fin 4, f32IsDenormal (lane ((mk true row1 []).readVr (Instr.vcmpgefp 3 1 2).srcA) k) = false ∧
      f32IsDenormal (lane ((mk true row1 []).readVr (Instr.vcmpgefp 3 1 2).srcB) k) = false := by decide

/-- The premises hold of `prog`. -/
theorem prog_premises : PremisesHold prog := ⟨rfl, rfl⟩

/-- The premises hold of `progP4`. -/
theorem progP4_premises : PremisesHold progP4 := ⟨rfl, rfl⟩

/-- The fetch of `prog` at its base. -/
theorem prog_fetch : prog.fetch = .ok 0x106009C6#32 :=
  (State.fetch_eq_ok_iff _ _).mpr (by decide)

theorem witness_StepRunsTheDecodedInstruction : PremisesHold prog ∧ prog.pc % 4 = 0 ∧ prog.pc ≠ prog.textEnd ∧
    prog.inText prog.pc = true ∧ Memory.read prog.mem prog.pc = some 0x10#8 ∧
    Memory.read prog.mem (prog.pc + 1) = some 0x60#8 ∧ Memory.read prog.mem (prog.pc + 2) = some 0x09#8 ∧
    Memory.read prog.mem (prog.pc + 3) = some 0xC6#8 ∧
    decodeBytes prog.params.rcBit [0x10#8, 0x60#8, 0x09#8, 0xC6#8] = .word (.instr (.vcmpgefp 3 0 1)) [] :=
  ⟨prog_premises, by decide, by decide, by decide, by decide, by decide, by decide, by decide, by decide⟩

/-- One `pc` for each clause: misaligned, the end, outside on both sides, and the program's first and last
word, the latter out of scope. -/
theorem witness_StepOutcomes :
    PremisesHold { prog with pc := 0x1002 } ∧ 0x1002 % 4 ≠ 0 ∧
    (0x1008 % 4 = 0 ∧ 0x1008 = (prog.text.base + 4 * prog.text.len) % 2 ^ prog.params.pcWidth) ∧
    (∀ k, k < prog.text.len → 0x0FFC ≠ (prog.text.base + 4 * k) % 2 ^ prog.params.pcWidth) ∧
    (∀ k, k < prog.text.len → 0x100C ≠ (prog.text.base + 4 * k) % 2 ^ prog.params.pcWidth) ∧
    (prog.pc = (prog.text.base + 4 * 0) % 2 ^ prog.params.pcWidth ∧
      Memory.readWord prog.mem prog.pc = some 0x106009C6#32 ∧
      decodeWord prog.params.rcBit 0x106009C6#32 = .instr (.vcmpgefp 3 0 1)) ∧
    (0x1004 = (progP4.text.base + 4 * 1) % 2 ^ progP4.params.pcWidth ∧
      Memory.readWord progP4.mem 0x1004 = some 0x60000000#32 ∧
      decodeWord progP4.params.rcBit 0x60000000#32 = .notInScope 0x60000000#32) :=
  ⟨⟨rfl, rfl⟩, by decide, by decide, by decide, by decide, by decide, by decide⟩

theorem witness_RunOutsideThePremisesIsRefused :
    ({ prog with premises := { vmxEnabled := false, noAsync := true } }).premises.vmxEnabled = false ∧
    ({ prog with premises := { vmxEnabled := true, noAsync := false } }).premises.vmxEnabled = true ∧
    ({ prog with premises := { vmxEnabled := true, noAsync := false } }).premises.noAsync = false := by decide

theorem witness_OutOfScopeWordIsRefused :
    PremisesHold { progP4 with pc := 0x1004 } ∧ ({ progP4 with pc := 0x1004 }).params.rcBit = .bit27 ∧
    ({ progP4 with pc := 0x1004 }).fetch = .ok 0x60000000#32 ∧
    0x60000000#32 &&& 0xFC0003FF#32 ≠ 0x100001C6#32 ∧ 0x60000000#32 &&& 0xFC0003C0#32 ≠ 0x18000080#32 :=
  ⟨⟨rfl, rfl⟩, rfl, (State.fetch_eq_ok_iff _ _).mpr (by decide), by decide, by decide⟩

theorem witness_FetchIsBigEndian : prog.fetch = .ok 0x106009C6#32 := prog_fetch

/-- The program of `prog` is its two words. -/
theorem prog_program : ProgramIs prog [0x106009C6#32, 0x108205C6#32] := ⟨rfl, by decide⟩

/-- The program of `progP4` is its two words. -/
theorem progP4_program : ProgramIs progP4 [0x10A529C6#32, 0x60000000#32] := ⟨rfl, by decide⟩

/-- A state whose program is a list of words has a word at the address of each. -/
theorem loaded_of_program {s : State} {words : List Word} (h : ProgramIs s words) : TextLoaded s :=
  fun k hk => ⟨_, h.word k (h.len ▸ hk)⟩

/-- `prog` meets the invariant. -/
theorem prog_inv : Inv prog :=
  ⟨by decide, by decide, by decide, loaded_of_program prog_program, by decide, by decide, by decide⟩

/-- `progP4` meets the invariant. -/
theorem progP4_inv : Inv progP4 :=
  ⟨by decide, by decide, by decide, loaded_of_program progP4_program, by decide, by decide, by decide⟩

/-- A program that fills its whole address space: two words where `PC_WIDTH` is 3, from address 4 on. -/
def fullProg : State :=
  State.launch { pcWidth := 3, rcBit := .bit27 } State.reset.vr 0 State.reset.vscr 4 [0x106009C6#32, 0x108205C6#32]

/-- The program of `fullProg` is its two words, the second at address 0. -/
theorem fullProg_program : ProgramIs fullProg [0x106009C6#32, 0x108205C6#32] := ⟨rfl, by decide⟩

/-- The last word of a program shorter than the address space; then, of a program that fills it, the word
past the wrap (the first clause again) and word 0, at the program's end (the second clause). -/
theorem witness_FetchReturnsTheProgramsWords :
    (1 < [0x106009C6#32, 0x108205C6#32].length ∧ ({ prog with pc := 0x1004 }).params.wf = true ∧
      ({ prog with pc := 0x1004 }).text.base % 4 = 0 ∧
      ProgramIs { prog with pc := 0x1004 } [0x106009C6#32, 0x108205C6#32] ∧
      0x1004 = (prog.text.base + 4 * 1) % 2 ^ prog.params.pcWidth ∧ 4 * 2 < 2 ^ prog.params.pcWidth) ∧
    (fullProg.params.wf = true ∧ fullProg.text.base % 4 = 0 ∧
      ProgramIs { fullProg with pc := 0 } [0x106009C6#32, 0x108205C6#32] ∧
      0 = (fullProg.text.base + 4 * 1) % 2 ^ fullProg.params.pcWidth ∧ 4 * 2 = 2 ^ fullProg.params.pcWidth) ∧
    (ProgramIs fullProg [0x106009C6#32, 0x108205C6#32] ∧
      fullProg.pc = (fullProg.text.base + 4 * 0) % 2 ^ fullProg.params.pcWidth ∧
      4 * [0x106009C6#32, 0x108205C6#32].length = 2 ^ fullProg.params.pcWidth) :=
  ⟨⟨by decide, by decide, by decide, ⟨rfl, by decide⟩, by decide, by decide⟩,
    ⟨by decide, by decide, ⟨rfl, by decide⟩, by decide, by decide⟩, fullProg_program, by decide, by decide⟩

/-- At reset, where no program is loaded, and inside a loaded program. -/
theorem witness_PlacedWordIsRunNext :
    PremisesHold State.reset ∧ State.reset.params.wf = true ∧ State.reset.pc % 4 = 0 ∧
    State.reset.pc < 2 ^ State.reset.params.pcWidth ∧
    decodeWord State.reset.params.rcBit (BitVec.ofNat 32 (0x18C50CB9 % 2 ^ 32)) = .instr (.vcmpgefp128Rc 70 101 33) ∧
    decodeWord State.reset.params.rcBit (BitVec.ofNat 32 (0x60000000 % 2 ^ 32)) =
      .notInScope (BitVec.ofNat 32 (0x60000000 % 2 ^ 32)) ∧
    PremisesHold prog ∧ prog.params.wf = true ∧ prog.pc % 4 = 0 ∧ prog.pc < 2 ^ prog.params.pcWidth :=
  ⟨⟨rfl, rfl⟩, by decide, by decide, by decide, by decide, by decide, prog_premises, by decide, by decide, by decide⟩

/-- A program that fills an address space of eight bytes exactly, and the empty one. -/
theorem witness_LaunchMeetsThePremises :
    ({ Params.default with pcWidth := 3 }).wf = true ∧ 4 % 4 = 0 ∧
    4 * [0x100001C6#32, 0x100001C6#32].length ≤ 2 ^ ({ Params.default with pcWidth := 3 }).pcWidth ∧
    4 * ([] : List Word).length ≤ 2 ^ ({ Params.default with pcWidth := 3 }).pcWidth := by decide

theorem witness_StepKeepsTheInvariant : Inv prog ∧ ∃ t, step prog = .next t :=
  ⟨prog_inv, _, step_of_instr prog_premises prog_fetch (i := .vcmpgefp 3 0 1) (by decide)⟩

theorem witness_NoStepIsStuckUnderTheInvariant : Inv prog ∧ PremisesHold prog := ⟨prog_inv, prog_premises⟩

theorem witness_RunKeepsVscrAndProgram : ∃ t, run 1 prog = .next t := by
  obtain ⟨-, t, h⟩ := witness_StepKeepsTheInvariant
  exact ⟨t, run_succ_of_next h 0⟩

theorem witness_ProgramEndsAfterItsLength :
    Inv prog ∧ PremisesHold prog ∧ ProgramIs prog [0x106009C6#32, 0x108205C6#32] ∧
    AllInScope prog [0x106009C6#32, 0x108205C6#32] ∧ 4 * 2 < 2 ^ prog.params.pcWidth ∧
    prog.pc = prog.textAddr 0 := by
  refine ⟨prog_inv, prog_premises, prog_program, ?_, by decide, by decide⟩
  intro w hw
  rcases List.mem_pair.mp hw with rfl | rfl
  · exact ⟨.vcmpgefp 3 0 1, by decide⟩
  · exact ⟨.vcmpgefpRc 4 2 0, by decide⟩

/-- Stopping at the second word. -/
theorem witness_ProgramStopsAtItsFirstOutOfScopeWord :
    1 < [0x10A529C6#32, 0x60000000#32].length ∧ Inv progP4 ∧ PremisesHold progP4 ∧
    ProgramIs progP4 [0x10A529C6#32, 0x60000000#32] ∧ AllInScope progP4 ([0x10A529C6#32, 0x60000000#32].take 1) ∧
    decodeWord progP4.params.rcBit 0x60000000#32 = .notInScope 0x60000000#32 ∧ 4 * 2 < 2 ^ progP4.params.pcWidth ∧
    progP4.pc = progP4.textAddr 0 := by
  refine ⟨by decide, progP4_inv, progP4_premises, progP4_program, ?_, by decide, by decide, by decide⟩
  intro w hw
  obtain rfl : w = 0x10A529C6#32 := by simpa using hw
  exact ⟨.vcmpgefp 5 5 5, by decide⟩

end Sys2Proof.Tests
end

section
/-! PROOFS. The statements of spec/10_state.md: the lane view, the register file, the program counter,
`CR6` inside the condition register, what a run keeps, and reset. -/

namespace Sys2Proof.Machine

/-! ### Lanes and registers (R11, R12) -/

/-- Bit `k` of lane `i` is bit `96 - 32i + k` of the register (R12). -/
theorem lane_getLsbD (v : Vec) (i : Fin 4) {k : Nat} (hk : k < 32) :
    (lane v i).getLsbD k = v.getLsbD (96 - 32 * i.val + k) := by
  simp [lane, hk]

/-- A register is its four lanes side by side. -/
theorem lanes_lane (v : Vec) : lanes (lane v 0) (lane v 1) (lane v 2) (lane v 3) = v := by
  apply eq_of_lane_eq
  intro i
  fin_cases i
  · exact lane_lanes_zero ..
  · exact lane_lanes_one ..
  · exact lane_lanes_two ..
  · exact lane_lanes_three ..

/-- Settles O11: a register value is determined by its lanes, so the read laws of `lanes` also give the
other inverse. -/
theorem laneView : Obligations.LaneView :=
  ⟨fun v i _ hk => lane_getLsbD v i hk,
    fun w0 w1 w2 w3 => ⟨lane_lanes_zero w0 w1 w2 w3, lane_lanes_one w0 w1 w2 w3, lane_lanes_two w0 w1 w2 w3,
      lane_lanes_three w0 w1 w2 w3⟩,
    lanes_lane⟩

/-- Settles O26: the read-after-write laws of the register file; and the two forms run the common
operation on the same operands. -/
theorem vectorRegisterFile : Obligations.VectorRegisterFile := by
  refine ⟨State.readVr_writeVr_same, fun s _ _ v h => State.readVr_writeVr_of_ne s v h, fun vd va vb s => ⟨?_, ?_⟩⟩
  · exact (exec_eq_vcmpge (.vcmpgefp vd va vb) s).trans (exec_eq_vcmpge (.vcmpgefp128 vd va vb) s).symm
  · exact (exec_eq_vcmpge (.vcmpgefpRc vd va vb) s).trans (exec_eq_vcmpge (.vcmpgefp128Rc vd va vb) s).symm

/-! ### The program counter (R13) -/

/-- The common operation reads `pc` for nothing but the next `pc`. -/
theorem vcmpge_withPc (rc : Bool) (vd va vb : VReg) (s : State) (p : Nat) :
    vcmpge rc vd va vb { s with pc := p } =
      { vcmpge rc vd va vb s with pc := (p + 4) % 2 ^ s.params.pcWidth } := by
  cases rc <;> rfl

/-- Settles O25: the next `pc` is the common operation's, and another `pc` before it changes only that. -/
theorem programCounterIsNoOperand : Obligations.ProgramCounterIsNoOperand := by
  intro i s p
  refine ⟨_, exec_eq_vcmpge i s, vcmpge_pc .., ?_⟩
  rw [exec_eq_vcmpge, vcmpge_withPc]

/-! ### `CR6` in the condition register (R14, R54) -/

/-- The four-word test on the lanes of a register is the test of each lane. -/
theorem allFour_lanes_iff (m : Word) (v : Vec) :
    allFour m (lane v 0) (lane v 1) (lane v 2) (lane v 3) = true ↔ ∀ k : Fin 4, lane v k = m := by
  simp [allFour, Fin.forall_fin_succ, and_assoc]

section
variable (m0 m1 m2 m3 : Word)

@[simp] theorem cr6Lt_cr6FromMask : cr6Lt (cr6FromMask m0 m1 m2 m3) = allFour maskTrue m0 m1 m2 m3 := by
  simp only [cr6Lt, cr6FromMask, BitVec.getLsbD_append]
  simp

@[simp] theorem cr6Gt_cr6FromMask : cr6Gt (cr6FromMask m0 m1 m2 m3) = false := by
  simp only [cr6Gt, cr6FromMask, BitVec.getLsbD_append]
  simp

@[simp] theorem cr6Eq_cr6FromMask : cr6Eq (cr6FromMask m0 m1 m2 m3) = allFour maskFalse m0 m1 m2 m3 := by
  simp only [cr6Eq, cr6FromMask, BitVec.getLsbD_append]
  simp

@[simp] theorem cr6So_cr6FromMask : cr6So (cr6FromMask m0 m1 m2 m3) = false := by
  simp only [cr6So, cr6FromMask, BitVec.getLsbD_append]
  simp

end

section
variable (s : State)

theorem State.crBit_24 : s.crBit 24 = some (cr6Lt s.cr6) := rfl
theorem State.crBit_25 : s.crBit 25 = some (cr6Gt s.cr6) := rfl
theorem State.crBit_26 : s.crBit 26 = some (cr6Eq s.cr6) := rfl
theorem State.crBit_27 : s.crBit 27 = some (cr6So s.cr6) := rfl

/-- The condition-register bits the state carries are 24 to 27. -/
theorem State.crBit_isSome_iff (n : Nat) : (s.crBit n).isSome = true ↔ 24 ≤ n ∧ n ≤ 27 := by
  unfold State.crBit
  split <;> simp_all

end

/-- Settles O27: each of the four bits is one bit of `cr6FromMask` on the result lanes. -/
theorem cr6InTheConditionRegister : Obligations.Cr6InTheConditionRegister := by
  refine ⟨fun i s hi => ⟨_, exec_eq_vcmpge i s, ?_⟩, State.crBit_isSome_iff⟩
  have hc := vcmpge_cr6 true i.dest i.srcA i.srcB s
  rw [if_pos rfl] at hc
  simp only [hi, State.crBit_24, State.crBit_25, State.crBit_26, State.crBit_27, hc, Option.some.injEq,
    cr6Lt_cr6FromMask, cr6Gt_cr6FromMask, cr6Eq_cr6FromMask, cr6So_cr6FromMask, true_and, and_true]
  exact ⟨allFour_lanes_iff maskTrue _, allFour_lanes_iff maskFalse _⟩

/-! ### What a run keeps (R15, R26) -/

/-- The fields no instruction writes. -/
def State.constants (s : State) : Vscr × Memory × TextRange × Params × Premises :=
  (s.vscr, s.mem, s.text, s.params, s.premises)

theorem State.constants_eq_iff (s t : State) : t.constants = s.constants ↔
    t.vscr = s.vscr ∧ t.mem = s.mem ∧ t.text = s.text ∧ t.params = s.params ∧ t.premises = s.premises := by
  simp only [State.constants, Prod.mk.injEq]

/-- Every instruction leaves the constants as they were. -/
theorem exec_constants {i : Instr} {s t : State} (h : exec i s = .next t) : t.constants = s.constants := by
  obtain rfl : vcmpge i.isRecord i.dest i.srcA i.srcB s = t := by simpa [exec_eq_vcmpge] using h
  simp [State.constants_eq_iff]

/-- Every step leaves the constants as they were. -/
theorem step_constants {s t : State} (h : step s = .next t) : t.constants = s.constants := by
  obtain ⟨-, -, _, _, -, -, hx⟩ := (step_eq_next_iff s t).mp h
  exact exec_constants hx

/-- Settles O48: by induction on the run, each step keeping what the steps before it kept. -/
theorem runKeepsVscrAndProgram : Obligations.RunKeepsVscrAndProgram := by
  intro n s t h
  refine (State.constants_eq_iff s t).mp ?_
  exact run_induction (P := fun u => u.constants = s.constants)
    (fun _ _ hu hstep => (step_constants hstep).trans hu) rfl h

/-! ### Reset (R18) -/

/-- Reset meets the invariant: no program is loaded, and `pc` is the empty program's end. -/
theorem State.reset_inv : Inv State.reset where
  width := by decide
  baseAligned := rfl
  memWf := by decide
  loaded := fun k hk => absurd hk (Nat.not_lt_zero k)
  pcBound := by decide
  pcAligned := rfl
  pcPlace := .inr (by decide)

/-- Settles O44: the invariant at reset, and the premises and `NJ` as reset sets them. -/
theorem resetMeetsTheInvariant : Obligations.ResetMeetsTheInvariant :=
  ⟨State.reset_inv, ⟨rfl, rfl⟩, rfl⟩

end Sys2Proof.Machine
end

section
/-! PROOFS. The statements of spec/20_memory.md: the bytes of a fetched word, the words of a loaded program,
and the invariant of a run. -/

namespace Sys2Proof.Machine

/-! ### The bytes of a word (R21) -/

section
variable (b0 b1 b2 b3 : Byte)

@[simp] theorem byteOfWord_wordOfBytes_zero : byteOfWord (wordOfBytes b0 b1 b2 b3) 0 = b0 :=
  (BitVec.extractLsb'_append_eq_of_le (by decide)).trans
    ((BitVec.extractLsb'_append_eq_of_le (by decide)).trans BitVec.extractLsb'_append_eq_left)

@[simp] theorem byteOfWord_wordOfBytes_one : byteOfWord (wordOfBytes b0 b1 b2 b3) 1 = b1 :=
  (BitVec.extractLsb'_append_eq_of_le (by decide)).trans
    ((BitVec.extractLsb'_append_eq_of_le (by decide)).trans BitVec.extractLsb'_append_eq_right)

@[simp] theorem byteOfWord_wordOfBytes_two : byteOfWord (wordOfBytes b0 b1 b2 b3) 2 = b2 :=
  (BitVec.extractLsb'_append_eq_of_le (by decide)).trans BitVec.extractLsb'_append_eq_right

@[simp] theorem byteOfWord_wordOfBytes_three : byteOfWord (wordOfBytes b0 b1 b2 b3) 3 = b3 :=
  BitVec.extractLsb'_append_eq_right

end

/-- Memory holds a word exactly when it holds the word's four bytes at the four addresses from there on. -/
theorem Memory.readWord_eq_some_iff_bytes (m : Memory) (a : Nat) (w : Word) :
    Memory.readWord m a = some w ↔
      Memory.read m a = some (byteOfWord w 0) ∧ Memory.read m (a + 1) = some (byteOfWord w 1) ∧
      Memory.read m (a + 2) = some (byteOfWord w 2) ∧ Memory.read m (a + 3) = some (byteOfWord w 3) := by
  rw [Memory.readWord_eq_some_iff]
  constructor
  · rintro ⟨b0, b1, b2, b3, h0, h1, h2, h3, rfl⟩
    simp [h0, h1, h2, h3]
  · rintro ⟨h0, h1, h2, h3⟩
    exact ⟨_, _, _, _, h0, h1, h2, h3, wordOfBytes_byteOfWord w⟩

/-- Settles O41: a fetched word is the word memory holds at `pc`, so its four bytes are those read there. -/
theorem fetchIsBigEndian : Obligations.FetchIsBigEndian := by
  intro s w h
  obtain ⟨-, -, -, hw⟩ := (State.fetch_eq_ok_iff s w).mp h
  exact (Memory.readWord_eq_some_iff_bytes s.mem s.pc w).mp hw

/-! ### The addresses of program words (R23) -/

/-- Program addresses less than `2^PC_WIDTH` bytes apart differ. -/
theorem State.textAddr_ne_of_lt (s : State) {j k : Nat} (hlt : j < k)
    (hfit : 4 * (k - j) < 2 ^ s.params.pcWidth) : s.textAddr j ≠ s.textAddr k := by
  intro h
  have hmod : (s.text.base + 4 * k) % 2 ^ s.params.pcWidth = (s.text.base + 4 * j) % 2 ^ s.params.pcWidth := h.symm
  have hzero := Nat.sub_mod_eq_zero_of_mod_eq hmod
  have hdiff : s.text.base + 4 * k - (s.text.base + 4 * j) = 4 * (k - j) := by omega
  rw [hdiff, Nat.mod_eq_of_lt hfit] at hzero
  omega

/-- A program of exactly `2^PC_WIDTH` bytes ends at the address of its word 0. -/
theorem State.textEnd_eq_textAddr_zero (s : State) (hfull : 4 * s.text.len = 2 ^ s.params.pcWidth) :
    s.textEnd = s.textAddr 0 := by
  simp [State.textEnd, State.textAddr, State.pcModulus, instrBytes, hfull]

/-- The address of a program word is in the program. -/
theorem State.inText_textAddr (s : State) {k : Nat} (hk : k < s.text.len) : s.inText (s.textAddr k) = true :=
  (s.inText_iff _).mpr ⟨k, hk, rfl⟩

/-- Settles O42: the address of word `k` is aligned and in the program, and it is the program's end only
where the end wraps to word 0. -/
theorem fetchReturnsTheProgramsWords : Obligations.FetchReturnsTheProgramsWords := by
  intro s words k hk hwidth hbase hprog hpc hfits
  have hlen := hprog.len
  replace hpc : s.pc = s.textAddr k := hpc
  have haligned : s.pc % 4 = 0 := hpc ▸ s.textAddr_mod_four hwidth hbase k
  refine ⟨fun hcase => ?_, fun hzero hfull => ?_⟩
  · have hnotEnd : s.pc ≠ s.textEnd := hpc ▸ s.textAddr_ne_of_lt (by omega) (by omega)
    exact State.fetch_loaded haligned hnotEnd (hpc ▸ s.inText_textAddr (by omega)) (hpc ▸ hprog.word k hk)
  · subst hzero
    exact State.fetch_end haligned (hpc.trans (s.textEnd_eq_textAddr_zero (hlen ▸ hfull)).symm)

/-! ### The invariant of a run (R13, R22, R23) -/

/-- An address of the program, its end among them, is a place of the invariant's `pc`. -/
theorem State.textAddr_place (s : State) {k : Nat} (hk : k ≤ s.text.len) :
    s.inText (s.textAddr k) = true ∨ s.textAddr k = s.textEnd := by
  rcases hk.lt_or_eq with hlt | rfl
  · exact .inl (s.inText_textAddr hlt)
  · exact .inr rfl

/-- Program addresses are computed from constants of the run. -/
theorem State.textAddr_of_constants {s t : State} (h : t.constants = s.constants) (k : Nat) :
    t.textAddr k = s.textAddr k := by
  obtain ⟨-, -, htext, hparams, -⟩ := (State.constants_eq_iff s t).mp h
  simp [State.textAddr, State.pcModulus, htext, hparams]

/-- A loaded program stays loaded where the constants stay. -/
theorem TextLoaded.of_constants {s t : State} (h : t.constants = s.constants) (hs : TextLoaded s) :
    TextLoaded t := by
  obtain ⟨-, hmem, htext, -, -⟩ := (State.constants_eq_iff s t).mp h
  intro k hk
  rw [State.textAddr_of_constants h, hmem]
  exact hs k (htext ▸ hk)

/-- A step goes from a word of the program to the address of the word after it. -/
theorem step_textAddr {s t : State} (h : step s = .next t) :
    ∃ k, k < s.text.len ∧ s.pc = s.textAddr k ∧ t.pc = s.textAddr (k + 1) := by
  obtain ⟨-, -, w, i, hfetch, -, hexec⟩ := (step_eq_next_iff s t).mp h
  obtain ⟨-, -, hin, -⟩ := (State.fetch_eq_ok_iff s w).mp hfetch
  obtain ⟨k, hk, hpc⟩ := (s.inText_iff s.pc).mp hin
  obtain rfl : vcmpge i.isRecord i.dest i.srcA i.srcB s = t := by simpa [exec_eq_vcmpge] using hexec
  exact ⟨k, hk, hpc, by rw [vcmpge_pc, hpc, State.textAddr_succ]⟩

/-- Settles O46: a step keeps the constants, and takes `pc` from a program word to the address of the next
word or of the end. -/
theorem stepKeepsTheInvariant : Obligations.StepKeepsTheInvariant := by
  intro s t hs hstep
  have hconst := step_constants hstep
  obtain ⟨-, hmem, htext, hparams, -⟩ := (State.constants_eq_iff s t).mp hconst
  have hwidth : t.params.wf = true := hparams ▸ hs.width
  have hbase : t.text.base % 4 = 0 := htext ▸ hs.baseAligned
  obtain ⟨k, hk, -, hpc⟩ := step_textAddr hstep
  rw [← State.textAddr_of_constants hconst] at hpc
  exact {
    width := hwidth
    baseAligned := hbase
    memWf := hmem ▸ hs.memWf
    loaded := hs.loaded.of_constants hconst
    pcBound := hpc ▸ t.textAddr_lt (k + 1)
    pcAligned := hpc ▸ t.textAddr_mod_four hwidth hbase (k + 1)
    pcPlace := hpc ▸ t.textAddr_place (by rw [htext]; exact hk) }

end Sys2Proof.Machine
end

section
/-! PROOFS. The two round trips of spec/30_encoding.md between words and instructions: the fields of an encoded
word are those that were encoded, and a word of a pattern is its own fields encoded. -/

namespace Sys2Proof

/-! ### The fields determine the word (R31, R32) -/

/-- Two words with the same fields of form VX128_R are the same word. -/
theorem eq_of_vx128Fields_eq {v w : Word} (opcd : msbField v 0 5 = msbField w 0 5)
    (vdLow : msbField v 6 10 = msbField w 6 10) (vaLow : msbField v 11 15 = msbField w 11 15)
    (vbLow : msbField v 16 20 = msbField w 16 20) (va6 : msbField v 21 21 = msbField w 21 21)
    (xo : msbField v 22 24 = msbField w 22 24) (bit25 : msbField v 25 25 = msbField w 25 25)
    (va5 : msbField v 26 26 = msbField w 26 26) (bit27 : msbField v 27 27 = msbField w 27 27)
    (vdHigh : msbField v 28 29 = msbField w 28 29) (vbHigh : msbField v 30 31 = msbField w 30 31) : v = w := by
  rw [word_eq_vx128Fields v, word_eq_vx128Fields w, opcd, vdLow, vaLow, vbLow, va6, xo, bit25, va5, bit27,
    vdHigh, vbHigh]

/-! ### The pieces of a register number put together from pieces (R33, R34) -/

theorem VReg.fitsVc_setWidth (x : BitVec 5) : VReg.fitsVc (x.setWidth 7) = true := by
  revert x
  decide

theorem VReg.low5_of_setWidth (x : BitVec 5) : VReg.low5 (x.setWidth 7) = x := by
  revert x
  decide

theorem VReg.low5_append (h : BitVec 2) (l : BitVec 5) : VReg.low5 (h ++ l : BitVec (2 + 5)) = l :=
  BitVec.extractLsb'_append_eq_right

theorem VReg.high2_append (h : BitVec 2) (l : BitVec 5) : VReg.high2 (h ++ l : BitVec (2 + 5)) = h :=
  BitVec.extractLsb'_append_eq_left

theorem VReg.low5_append_append (h k : BitVec 1) (l : BitVec 5) :
    VReg.low5 (h ++ k ++ l : BitVec (1 + 1 + 5)) = l :=
  BitVec.extractLsb'_append_eq_right

theorem VReg.bit5_append_append (h k : BitVec 1) (l : BitVec 5) :
    VReg.bit5 (h ++ k ++ l : BitVec (1 + 1 + 5)) = k := by
  revert h k l
  decide

theorem VReg.bit6_append_append (h k : BitVec 1) (l : BitVec 5) :
    VReg.bit6 (h ++ k ++ l : BitVec (1 + 1 + 5)) = h := by
  revert h k l
  decide

/-! ### Decoding an encoded instruction -/

section
variable (rc : RcBit) (vd va vb : VReg) (b : BitVec 1)

theorem encodeVc_pattern : encodeVc vd va vb b &&& vcMask = vcMatch :=
  (vcPattern_iff _).mpr ⟨encodeVc_field_0_5 .., encodeVc_field_22_31 ..⟩

theorem encodeVx128_pattern : encodeVx128 rc vd va vb b &&& vx128Mask rc = vx128Match := by
  cases rc with
  | bit27 =>
    obtain ⟨hopcd, -, -, -, -, hxo, -⟩ := encodeVx128_fields vd va vb b .bit27
    exact (vx128Pattern_bit27_iff _).mpr ⟨hopcd, hxo, (encodeVx128_bit27_rest vd va vb b).1⟩
  | bit25 =>
    obtain ⟨hopcd, -, -, -, -, hxo, -⟩ := encodeVx128_fields vd va vb b .bit25
    exact (vx128Pattern_bit25_iff _).mpr ⟨hopcd, hxo, (encodeVx128_bit25_rest vd va vb b).2⟩

theorem vx128Rc_encodeVx128 : vx128Rc rc (encodeVx128 rc vd va vb b) = b := by
  cases rc with
  | bit27 => exact (encodeVx128_bit27_rest vd va vb b).2
  | bit25 => exact (encodeVx128_bit25_rest vd va vb b).1

/-- A word of form VC decodes to its three register numbers, when the form can hold them. -/
theorem decodeWord_encodeVc (h : (VReg.fitsVc vd && VReg.fitsVc va && VReg.fitsVc vb) = true) :
    decodeWord rc (encodeVc vd va vb b) =
      if b = 1#1 then .instr (.vcmpgefpRc vd va vb) else .instr (.vcmpgefp vd va vb) := by
  simp only [Bool.and_eq_true] at h
  obtain ⟨⟨hd, ha⟩, hb⟩ := h
  rw [decodeWord_of_vc rc (encodeVc_pattern vd va vb b), vcRc, vcVD, vcVA, vcVB, encodeVc_field_21_21,
    encodeVc_field_6_10, encodeVc_field_11_15, encodeVc_field_16_20, VReg.low5_setWidth hd,
    VReg.low5_setWidth ha, VReg.low5_setWidth hb]

/-- A word of form VX128_R decodes to its three register numbers. -/
theorem decodeWord_encodeVx128 : decodeWord rc (encodeVx128 rc vd va vb b) =
    if b = 1#1 then .instr (.vcmpgefp128Rc vd va vb) else .instr (.vcmpgefp128 vd va vb) := by
  obtain ⟨-, hvdLow, hvaLow, hvbLow, hva6, -, hva5, hvdHigh, hvbHigh⟩ := encodeVx128_fields vd va vb b rc
  rw [decodeWord_of_vx128 rc (encodeVx128_pattern rc vd va vb b), vx128Rc_encodeVx128, vx128VD, vx128VA, vx128VB,
    hvdLow, hvaLow, hvbLow, hva6, hva5, hvdHigh, hvbHigh, VReg.high2_append_low5,
    VReg.bit6_append_bit5_append_low5, VReg.high2_append_low5]

end

/-- Settles O8: the decoder reads back each field the encoder wrote, and the pieces of a register number
make it up again. -/
theorem decodeOfEncode : Obligations.DecodeOfEncode := by
  intro rc i hwf
  cases i with
  | vcmpgefp vd va vb => exact decodeWord_encodeVc rc vd va vb 0#1 hwf
  | vcmpgefpRc vd va vb => exact decodeWord_encodeVc rc vd va vb 1#1 hwf
  | vcmpgefp128 vd va vb => exact decodeWord_encodeVx128 rc vd va vb 0#1
  | vcmpgefp128Rc vd va vb => exact decodeWord_encodeVx128 rc vd va vb 1#1

/-! ### Encoding a decoded word -/

/-- The fields of form VC are register numbers it can hold (R33). -/
theorem fitsVc_vcFields (w : Word) :
    (VReg.fitsVc (vcVD w) && VReg.fitsVc (vcVA w) && VReg.fitsVc (vcVB w)) = true := by
  rw [vcVD, vcVA, vcVB, VReg.fitsVc_setWidth, VReg.fitsVc_setWidth, VReg.fitsVc_setWidth]
  rfl

/-- A word of the VC pattern is its own fields encoded. -/
theorem encodeVc_vcFields {w : Word} {b : BitVec 1} (h : w &&& vcMask = vcMatch) (hrc : vcRc w = b) :
    encodeVc (vcVD w) (vcVA w) (vcVB w) b = w := by
  subst hrc
  obtain ⟨hopcd, hxo⟩ := (vcPattern_iff w).mp h
  rw [encodeVc, vcVD, vcVA, vcVB, VReg.low5_of_setWidth, VReg.low5_of_setWidth, VReg.low5_of_setWidth, ← hopcd,
    ← hxo]
  exact (word_eq_vcFields w).symm

/-- An encoded word of form VX128_R agrees with a word of the pattern and of the same record bit on `OPCD`, `XO`
and `Rc`, whatever the operands. -/
theorem encodeVx128_fixedFields {rc : RcBit} {w : Word} {b : BitVec 1} (h : w &&& vx128Mask rc = vx128Match)
    (hrc : vx128Rc rc w = b) (vd va vb : VReg) :
    msbField (encodeVx128 rc vd va vb b) 0 5 = msbField w 0 5 ∧
    msbField (encodeVx128 rc vd va vb b) 22 24 = msbField w 22 24 ∧
    msbField (encodeVx128 rc vd va vb b) 25 25 = msbField w 25 25 ∧
    msbField (encodeVx128 rc vd va vb b) 27 27 = msbField w 27 27 := by
  obtain ⟨hopcd, -, -, -, -, hxo, -⟩ := encodeVx128_fields vd va vb b rc
  cases rc with
  | bit27 =>
    obtain ⟨h0, h22, h25⟩ := (vx128Pattern_bit27_iff w).mp h
    obtain ⟨e25, e27⟩ := encodeVx128_bit27_rest vd va vb b
    exact ⟨hopcd.trans h0.symm, hxo.trans h22.symm, e25.trans h25.symm, e27.trans hrc.symm⟩
  | bit25 =>
    obtain ⟨h0, h22, h27⟩ := (vx128Pattern_bit25_iff w).mp h
    obtain ⟨e25, e27⟩ := encodeVx128_bit25_rest vd va vb b
    exact ⟨hopcd.trans h0.symm, hxo.trans h22.symm, e25.trans hrc.symm, e27.trans h27.symm⟩

/-- A word of the VX128_R pattern is its own fields encoded, for either place of `Rc`. -/
theorem encodeVx128_vx128Fields {rc : RcBit} {w : Word} {b : BitVec 1} (h : w &&& vx128Mask rc = vx128Match)
    (hrc : vx128Rc rc w = b) : encodeVx128 rc (vx128VD w) (vx128VA w) (vx128VB w) b = w := by
  obtain ⟨-, hvdLow, hvaLow, hvbLow, hva6, -, hva5, hvdHigh, hvbHigh⟩ :=
    encodeVx128_fields (vx128VD w) (vx128VA w) (vx128VB w) b rc
  obtain ⟨hopcd, hxo, hbit25, hbit27⟩ := encodeVx128_fixedFields h hrc (vx128VD w) (vx128VA w) (vx128VB w)
  exact eq_of_vx128Fields_eq hopcd (hvdLow.trans (VReg.low5_append ..))
    (hvaLow.trans (VReg.low5_append_append ..)) (hvbLow.trans (VReg.low5_append ..))
    (hva6.trans (VReg.bit6_append_append ..)) hxo hbit25 (hva5.trans (VReg.bit5_append_append ..)) hbit27
    (hvdHigh.trans (VReg.high2_append ..)) (hvbHigh.trans (VReg.high2_append ..))

/-- Settles O9: in each of the decoder's answers the word is its own fields encoded, and those fields are
the instruction's. -/
theorem encodeOfDecode : Obligations.EncodeOfDecode := by
  intro rc w i h
  obtain ⟨hp, hrc, hd⟩ | ⟨hp, hrc, hd⟩ | ⟨hp, hrc, hd⟩ | ⟨hp, hrc, hd⟩ | ⟨-, -, hd⟩ := decodeWord_cases rc w
  · cases hd.symm.trans h
    exact ⟨fitsVc_vcFields w, encodeVc_vcFields hp hrc⟩
  · cases hd.symm.trans h
    exact ⟨fitsVc_vcFields w, encodeVc_vcFields hp hrc⟩
  · cases hd.symm.trans h
    exact ⟨rfl, encodeVx128_vx128Fields hp hrc⟩
  · cases hd.symm.trans h
    exact ⟨rfl, encodeVx128_vx128Fields hp hrc⟩
  · cases hd.symm.trans h

/-- A word decodes to an instruction exactly when it is the encoding of that instruction, well-formed. -/
theorem decodeWord_eq_instr_iff (rc : RcBit) (w : Word) (i : Instr) :
    decodeWord rc w = .instr i ↔ i.wf = true ∧ encode rc i = w := by
  constructor
  · exact encodeOfDecode rc w i
  · rintro ⟨hwf, rfl⟩
    exact decodeOfEncode rc i hwf

end Sys2Proof
end

section
/-! PROOFS. The statements of spec/30_encoding.md that the round trips serve: the register numbers, the opcode
map, the decoder and the encoder as the spec's formulas, the two places of `Rc`, and the refusal of a word
outside both patterns. -/

namespace Sys2Proof

/-! ### A field as a number (R5, R6) -/

theorem toNat_msbField (w : Word) (a b : Nat) :
    (msbField w a b).toNat = w.toNat / 2 ^ (31 - b) % 2 ^ (b - a + 1) := by
  rw [msbField, BitVec.extractLsb'_toNat, Nat.shiftRight_eq_div_pow]

/-- The field "bits a–b" of a word as a word: `(w >> (31-b)) & (2^(b-a+1) - 1)` (R6). -/
theorem setWidth_msbField (w : Word) (a b : Nat) :
    (msbField w a b).setWidth 32 = (w >>> (31 - b)) &&& BitVec.ofNat 32 (2 ^ (b - a + 1) - 1) := by
  apply BitVec.eq_of_getLsbD_eq
  intro i hi
  simp only [msbField, BitVec.getLsbD_setWidth, BitVec.getLsbD_extractLsb', BitVec.getLsbD_and,
    BitVec.getLsbD_ushiftRight, BitVec.getLsbD_ofNat, Nat.testBit_two_pow_sub_one, hi, decide_true, Bool.true_and]
  exact Bool.and_comm _ _

/-- `OPCD` is what a shift by 26 leaves of a word. -/
theorem setWidth_opcd (w : Word) : (msbField w 0 5).setWidth 32 = w >>> 26 := by
  apply BitVec.eq_of_toNat_eq
  have hw := w.isLt
  rw [BitVec.toNat_setWidth, toNat_msbField, BitVec.toNat_ushiftRight, Nat.shiftRight_eq_div_pow]
  omega

/-- Widening a number to 32 bits loses nothing. -/
theorem setWidth_32_inj {n : Nat} (h : n ≤ 32) {x y : BitVec n} : x.setWidth 32 = y.setWidth 32 ↔ x = y := by
  rw [← BitVec.toNat_inj, BitVec.toNat_setWidth_of_le h, BitVec.toNat_setWidth_of_le h, BitVec.toNat_inj]

/-- A field has a value exactly when its word (R6) has. -/
theorem msbField_eq_iff (w : Word) (i j : Nat) (c : BitVec (j - i + 1)) (h : j - i < 32) :
    msbField w i j = c ↔ (w >>> (31 - j)) &&& BitVec.ofNat 32 (2 ^ (j - i + 1) - 1) = c.setWidth 32 := by
  rw [← setWidth_msbField, setWidth_32_inj h]

theorem opcd_eq_iff (w : Word) (c : BitVec 6) : msbField w 0 5 = c ↔ w >>> 26 = c.setWidth 32 := by
  rw [← setWidth_opcd, setWidth_32_inj (by decide)]

/-! ### Register numbers as formulas of the word (R33, R34) -/

/-- Two numbers side by side are the shift of the one or the other. -/
theorem setWidth_32_append {n k : Nat} (x : BitVec n) (y : BitVec k) (h : n + k ≤ 32) :
    (x ++ y).setWidth 32 = (x.setWidth 32 <<< k) ||| y.setWidth 32 := by
  apply BitVec.eq_of_getLsbD_eq
  intro i hi
  simp only [BitVec.getLsbD_setWidth, BitVec.getLsbD_append, BitVec.getLsbD_or, BitVec.getLsbD_shiftLeft, hi,
    decide_true, Bool.true_and]
  by_cases hik : i < k
  · simp [hik]
  · have hlow : y.getLsbD i = false := BitVec.getLsbD_of_ge y i (by omega)
    have hhigh : i - k < 32 := by omega
    simp [hik, hlow, hhigh]

section
variable (w : Word)

theorem toNat_vcVD : (vcVD w).toNat = w.toNat / 2 ^ 21 % 32 :=
  (BitVec.toNat_setWidth_of_le (by decide)).trans (toNat_msbField w 6 10)

theorem toNat_vcVA : (vcVA w).toNat = w.toNat / 2 ^ 16 % 32 :=
  (BitVec.toNat_setWidth_of_le (by decide)).trans (toNat_msbField w 11 15)

theorem toNat_vcVB : (vcVB w).toNat = w.toNat / 2 ^ 11 % 32 :=
  (BitVec.toNat_setWidth_of_le (by decide)).trans (toNat_msbField w 16 20)

theorem setWidth_vx128VD :
    (vx128VD w).setWidth 32 = (((w >>> 2) &&& 3#32) <<< 5) ||| ((w >>> 21) &&& 31#32) := by
  rw [vx128VD, setWidth_32_append _ _ (by decide), setWidth_msbField, setWidth_msbField]
  rfl

theorem setWidth_vx128VA : (vx128VA w).setWidth 32 =
    (((w >>> 10) &&& 1#32) <<< 6) ||| (((w >>> 5) &&& 1#32) <<< 5) ||| ((w >>> 16) &&& 31#32) := by
  rw [vx128VA, setWidth_32_append _ _ (by decide), setWidth_32_append _ _ (by decide), BitVec.shiftLeft_or_distrib,
    ← BitVec.shiftLeft_add, setWidth_msbField, setWidth_msbField, setWidth_msbField]
  rfl

theorem setWidth_vx128VB : (vx128VB w).setWidth 32 = ((w &&& 3#32) <<< 5) ||| ((w >>> 11) &&& 31#32) := by
  rw [vx128VB, setWidth_32_append _ _ (by decide), setWidth_msbField, setWidth_msbField, Nat.sub_self,
    BitVec.ushiftRight_zero]
  rfl

end

/-- The operands of a decoded VC-form instruction are the word's three fields. -/
theorem vcFields_of_decodeWord {rc : RcBit} {w : Word} {vd va vb : VReg}
    (h : decodeWord rc w = .instr (.vcmpgefp vd va vb) ∨ decodeWord rc w = .instr (.vcmpgefpRc vd va vb)) :
    vd = vcVD w ∧ va = vcVA w ∧ vb = vcVB w := by
  obtain ⟨-, -, hd⟩ | ⟨-, -, hd⟩ | ⟨-, -, hd⟩ | ⟨-, -, hd⟩ | ⟨-, -, hd⟩ := decodeWord_cases rc w
  · simpa [hd, eq_comm] using h
  · simpa [hd, eq_comm] using h
  · simp [hd] at h
  · simp [hd] at h
  · simp [hd] at h

/-- The operands of a decoded VX128_R-form instruction are put together from the word's pieces. -/
theorem vx128Fields_of_decodeWord {rc : RcBit} {w : Word} {vd va vb : VReg}
    (h : decodeWord rc w = .instr (.vcmpgefp128 vd va vb) ∨ decodeWord rc w = .instr (.vcmpgefp128Rc vd va vb)) :
    vd = vx128VD w ∧ va = vx128VA w ∧ vb = vx128VB w := by
  obtain ⟨-, -, hd⟩ | ⟨-, -, hd⟩ | ⟨-, -, hd⟩ | ⟨-, -, hd⟩ | ⟨-, -, hd⟩ := decodeWord_cases rc w
  · simp [hd] at h
  · simp [hd] at h
  · simpa [hd, eq_comm] using h
  · simpa [hd, eq_comm] using h
  · simp [hd] at h

/-- Settles O2: each operand is a field, and a 5-bit field is a remainder by 32. -/
theorem vcRegisterNumbers : Obligations.VcRegisterNumbers := by
  intro rc w vd va vb h
  obtain ⟨rfl, rfl, rfl⟩ := vcFields_of_decodeWord h
  rw [toNat_vcVD, toNat_vcVA, toNat_vcVB]
  exact ⟨rfl, rfl, rfl, Nat.mod_lt _ (by decide), Nat.mod_lt _ (by decide), Nat.mod_lt _ (by decide)⟩

/-- Settles O3: each operand is its pieces side by side, which is the spec's shift and or. -/
theorem vx128RegisterNumbers : Obligations.Vx128RegisterNumbers := by
  intro rc w vd va vb h
  obtain ⟨rfl, rfl, rfl⟩ := vx128Fields_of_decodeWord h
  exact ⟨setWidth_vx128VD w, setWidth_vx128VA w, setWidth_vx128VB w, Nat.le_of_lt_succ (vx128VD w).isLt,
    Nat.le_of_lt_succ (vx128VA w).isLt, Nat.le_of_lt_succ (vx128VB w).isLt⟩

/-! ### The opcode map (R35, R36) -/

/-- The fixed bits of a VC-form word whose record bit is `b`. -/
def vcOpcode (b : BitVec 1) : Word := 4#6 ++ 0#15 ++ b ++ 454#10

/-- The fixed bits of a VX128_R-form word whose record bit is `b`, for either place of `Rc`. -/
def vx128Opcode : RcBit → BitVec 1 → Word
  | .bit27, b => 6#6 ++ 0#16 ++ 2#4 ++ 0#1 ++ b ++ 0#4
  | .bit25, b => 6#6 ++ 0#16 ++ 1#3 ++ b ++ 0#6

theorem vcOpcode_pattern : ∀ b, vcOpcode b &&& vcMask = vcMatch := by decide

theorem vcRc_vcOpcode : ∀ b, vcRc (vcOpcode b) = b := by decide

theorem vx128Opcode_pattern (rc : RcBit) : ∀ b, vx128Opcode rc b &&& vx128Mask rc = vx128Match := by
  cases rc <;> decide

theorem vx128Rc_vx128Opcode (rc : RcBit) : ∀ b, vx128Rc rc (vx128Opcode rc b) = b := by
  cases rc <;> decide

/-- Masking with less after masking with more. -/
theorem and_eq_of_and_eq {w m v : Word} (h : w &&& m = v) {k : Word} (hk : m &&& k = k) : w &&& k = v &&& k := by
  rw [← h, BitVec.and_assoc, hk]

/-- The words with the fixed bits of form VC and record bit `b` are those of the pattern with that record bit. -/
theorem and_eq_vcOpcode_iff (w : Word) (b : BitVec 1) :
    w &&& 0xFC0007FF#32 = vcOpcode b ↔ w &&& vcMask = vcMatch ∧ vcRc w = b := by
  constructor
  · intro h
    have hrc : vcRc (w &&& 0xFC0007FF#32) = vcRc w := msbField_and_of_ones w _ 21 21 (by decide)
    exact ⟨(and_eq_of_and_eq h (by decide)).trans (vcOpcode_pattern b), hrc.symm.trans (h ▸ vcRc_vcOpcode b)⟩
  · rintro ⟨hp, hrc⟩
    rw [← encodeVc_vcFields hp hrc]
    exact Laws.OpcodeBits.encodeVc_and ..

/-- The words with the fixed bits of form VX128_R and record bit `b` are those of the pattern with that record
bit. -/
theorem and_eq_vx128Opcode_iff (rc : RcBit) (w : Word) (b : BitVec 1) :
    w &&& 0xFC0003D0#32 = vx128Opcode rc b ↔ w &&& vx128Mask rc = vx128Match ∧ vx128Rc rc w = b := by
  constructor
  · intro h
    have hmask : 0xFC0003D0#32 &&& vx128Mask rc = vx128Mask rc := by cases rc <;> decide
    have hrc : vx128Rc rc (w &&& 0xFC0003D0#32) = vx128Rc rc w := by
      cases rc with
      | bit27 => exact msbField_and_of_ones w _ 27 27 (by decide)
      | bit25 => exact msbField_and_of_ones w _ 25 25 (by decide)
    exact ⟨(and_eq_of_and_eq h hmask).trans (vx128Opcode_pattern rc b),
      hrc.symm.trans (h ▸ vx128Rc_vx128Opcode rc b)⟩
  · rintro ⟨hp, hrc⟩
    rw [← encodeVx128_vx128Fields hp hrc]
    cases rc with
    | bit27 => exact Laws.OpcodeBits.encodeVx128_bit27_and ..
    | bit25 => exact Laws.OpcodeBits.encodeVx128_bit25_and ..

/-- A word that decodes to an instruction has the fixed bits of that instruction's row. -/
theorem and_opcodeMask_of_decodeWord {rc : RcBit} {w : Word} {i : Instr} (h : decodeWord rc w = .instr i) :
    w &&& i.opcodeMask = i.opcodeMatch rc := by
  obtain ⟨-, rfl⟩ := encodeOfDecode rc w i h
  cases i with
  | vcmpgefp vd va vb => exact Laws.OpcodeBits.vcmpgefp vd va vb rc
  | vcmpgefpRc vd va vb => exact Laws.OpcodeBits.vcmpgefpRc vd va vb rc
  | vcmpgefp128 vd va vb => exact Laws.OpcodeBits.vcmpgefp128 vd va vb rc
  | vcmpgefp128Rc vd va vb => exact Laws.OpcodeBits.vcmpgefp128Rc vd va vb rc

section
variable (rc : RcBit) (w : Word)

theorem decodesTo_vcmpgefp_iff :
    (∃ vd va vb, decodeWord rc w = .instr (.vcmpgefp vd va vb)) ↔ w &&& 0xFC0007FF#32 = vcOpcode 0#1 := by
  constructor
  · rintro ⟨vd, va, vb, h⟩
    exact and_opcodeMask_of_decodeWord h
  · intro h
    obtain ⟨hp, hrc⟩ := (and_eq_vcOpcode_iff w 0#1).mp h
    exact ⟨_, _, _, by rw [decodeWord_of_vc rc hp, hrc]; rfl⟩

theorem decodesTo_vcmpgefpRc_iff :
    (∃ vd va vb, decodeWord rc w = .instr (.vcmpgefpRc vd va vb)) ↔ w &&& 0xFC0007FF#32 = vcOpcode 1#1 := by
  constructor
  · rintro ⟨vd, va, vb, h⟩
    exact and_opcodeMask_of_decodeWord h
  · intro h
    obtain ⟨hp, hrc⟩ := (and_eq_vcOpcode_iff w 1#1).mp h
    exact ⟨_, _, _, by rw [decodeWord_of_vc rc hp, hrc]; rfl⟩

theorem decodesTo_vcmpgefp128_iff :
    (∃ vd va vb, decodeWord rc w = .instr (.vcmpgefp128 vd va vb)) ↔
      w &&& 0xFC0003D0#32 = vx128Opcode rc 0#1 := by
  constructor
  · rintro ⟨vd, va, vb, h⟩
    exact (and_opcodeMask_of_decodeWord h).trans (by cases rc <;> rfl)
  · intro h
    obtain ⟨hp, hrc⟩ := (and_eq_vx128Opcode_iff rc w 0#1).mp h
    exact ⟨_, _, _, by rw [decodeWord_of_vx128 rc hp, hrc]; rfl⟩

theorem decodesTo_vcmpgefp128Rc_iff :
    (∃ vd va vb, decodeWord rc w = .instr (.vcmpgefp128Rc vd va vb)) ↔
      w &&& 0xFC0003D0#32 = vx128Opcode rc 1#1 := by
  constructor
  · rintro ⟨vd, va, vb, h⟩
    exact (and_opcodeMask_of_decodeWord h).trans (by cases rc <;> rfl)
  · intro h
    obtain ⟨hp, hrc⟩ := (and_eq_vx128Opcode_iff rc w 1#1).mp h
    exact ⟨_, _, _, by rw [decodeWord_of_vx128 rc hp, hrc]; rfl⟩

end

section
variable (w : Word) (b : BitVec 1)

theorem vcRc_eq_iff : vcRc w = b ↔ (w >>> 10) &&& 1#32 = b.setWidth 32 := msbField_eq_iff w 21 21 b (by decide)

theorem vx128Rc_bit27_eq_iff : vx128Rc .bit27 w = b ↔ (w >>> 4) &&& 1#32 = b.setWidth 32 :=
  msbField_eq_iff w 27 27 b (by decide)

/-- `XO` of form VC as a number. -/
theorem vcXo_iff : msbField w 22 31 = 454#10 ↔ w &&& 0x3FF#32 = 454#32 := by
  have h := msbField_eq_iff w 22 31 454#10 (by decide)
  rwa [Nat.sub_self, BitVec.ushiftRight_zero] at h

/-- `XO` of form VX128_R as a number, the four bits 22 to 25. -/
theorem vx128Xo_iff : msbField w 22 24 = 1#3 ∧ msbField w 25 25 = 0#1 ↔ (w >>> 6) &&& 15#32 = 2#32 := by
  have hsplit : msbField w 22 25 = msbField w 22 24 ++ msbField w 25 25 := by
    apply BitVec.eq_of_getLsbD_eq
    intro i hi
    simp only [msbField, BitVec.getLsbD_append, BitVec.getLsbD_extractLsb']
    interval_cases i <;> simp
  have happend : ∀ (x : BitVec 3) (y : BitVec 1), x = 1#3 ∧ y = 0#1 ↔ x ++ y = 2#4 := by decide
  rw [happend, ← hsplit]
  exact msbField_eq_iff w 22 25 2#4 (by decide)

/-- The fixed bits of a VC-form word, field by field (R35). -/
theorem and_eq_vcOpcode_iff_fields : w &&& 0xFC0007FF#32 = vcOpcode b ↔
    w >>> 26 = 4#32 ∧ w &&& 0x3FF#32 = 454#32 ∧ (w >>> 10) &&& 1#32 = b.setWidth 32 := by
  rw [and_eq_vcOpcode_iff, vcPattern_iff, opcd_eq_iff, vcXo_iff, vcRc_eq_iff, and_assoc]
  rfl

/-- The fixed bits of a VX128_R-form word with `Rc` at bit 27, field by field (R36). -/
theorem and_eq_vx128Opcode_iff_fields : w &&& 0xFC0003D0#32 = vx128Opcode .bit27 b ↔
    w >>> 26 = 6#32 ∧ (w >>> 6) &&& 15#32 = 2#32 ∧ (w >>> 4) &&& 1#32 = b.setWidth 32 := by
  rw [and_eq_vx128Opcode_iff, vx128Pattern_bit27_iff, vx128Xo_iff, opcd_eq_iff, vx128Rc_bit27_eq_iff, and_assoc]
  rfl

end

/-- A pattern that leaves a bit free is the pattern with the bit clear or with it set. -/
theorem and_bit_or_iff (p : Prop) (b : BitVec 1) : p ↔ p ∧ b = 0#1 ∨ p ∧ b = 1#1 := by
  rw [← and_or_left, and_iff_left (BitVec.eq_zero_or_eq_one b)]

/-- Settles O4: the mask with `Rc` is the pattern and the record bit, which are the decoder's test and the
three fields. -/
theorem vcOpcodeMap : Obligations.VcOpcodeMap := by
  intro rc w
  refine ⟨decodesTo_vcmpgefp_iff rc w, decodesTo_vcmpgefpRc_iff rc w, and_eq_vcOpcode_iff_fields w 0#1,
    and_eq_vcOpcode_iff_fields w 1#1, (and_bit_or_iff _ (vcRc w)).trans ?_⟩
  exact or_congr (and_eq_vcOpcode_iff w 0#1).symm (and_eq_vcOpcode_iff w 1#1).symm

/-- Settles O5: as for form VC, with the record bit at either place; the non-record words have 0 at both. -/
theorem vx128OpcodeMap : Obligations.Vx128OpcodeMap := by
  intro w
  refine ⟨fun rc => (decodesTo_vcmpgefp128_iff rc w).trans (by cases rc <;> rfl),
    decodesTo_vcmpgefp128Rc_iff .bit27 w, decodesTo_vcmpgefp128Rc_iff .bit25 w,
    and_eq_vx128Opcode_iff_fields w 0#1, and_eq_vx128Opcode_iff_fields w 1#1,
    (and_bit_or_iff _ (vx128Rc .bit27 w)).trans ?_⟩
  exact or_congr (and_eq_vx128Opcode_iff .bit27 w 0#1).symm (and_eq_vx128Opcode_iff .bit27 w 1#1).symm

/-! ### The decoder as the spec's pseudocode (R38) -/

/-- A field as a register number, from the field as a word (R6). -/
theorem setWidth_msbField_vreg (w : Word) (a b : Nat) : (msbField w a b).setWidth 7 =
    ((w >>> (31 - b)) &&& BitVec.ofNat 32 (2 ^ (b - a + 1) - 1)).setWidth 7 := by
  rw [← setWidth_msbField, BitVec.setWidth_setWidth_of_le _ (by decide)]

/-- Different words never decode to the same instruction: each is the instruction's encoding (R38). -/
theorem decodeWord_injective {rc : RcBit} {w v : Word} {i : Instr} (hw : decodeWord rc w = .instr i)
    (hv : decodeWord rc v = .instr i) : w = v :=
  (encodeOfDecode rc w i hw).2.symm.trans (encodeOfDecode rc v i hv).2

/-- Settles O6: under each pattern the decoder's fields are the pseudocode's. -/
theorem decoderIsTheSpecsDecoder : Obligations.DecoderIsTheSpecsDecoder := by
  refine ⟨fun w h => ?_, fun w h => ?_, fun w => decodeWord_of_neither .bit27,
    fun w h => patterns_exclusive .bit27 w h.1 h.2, fun rc w v i => decodeWord_injective⟩
  · have hrc : vcRc w = 1#1 ↔ (w >>> 10) &&& 1#32 = 1#32 := vcRc_eq_iff w 1#1
    have hd : vcVD w = ((w >>> 21) &&& 31#32).setWidth 7 := setWidth_msbField_vreg w 6 10
    have ha : vcVA w = ((w >>> 16) &&& 31#32).setWidth 7 := setWidth_msbField_vreg w 11 15
    have hb : vcVB w = ((w >>> 11) &&& 31#32).setWidth 7 := setWidth_msbField_vreg w 16 20
    rw [decodeWord_of_vc .bit27 h, ← apply_ite Decoded.instr, hd, ha, hb]
    simp only [hrc]
  · have hrc : vx128Rc .bit27 w = 1#1 ↔ (w >>> 4) &&& 1#32 = 1#32 := vx128Rc_bit27_eq_iff w 1#1
    refine ⟨vx128VD w, vx128VA w, vx128VB w, setWidth_vx128VD w, setWidth_vx128VA w, setWidth_vx128VB w, ?_⟩
    rw [decodeWord_of_vx128 .bit27 h, ← apply_ite Decoded.instr]
    simp only [hrc]

/-! ### The encoder as the spec's formula (R43) -/

section
variable (vd va vb : VReg) (b : BitVec 1)

/-- A word of form VC as shifts and ors of its fields. -/
theorem encodeVc_eq_shiftOr : encodeVc vd va vb b =
    0x100001C6#32 ||| ((vd.setWidth 32 &&& 31#32) <<< 21) ||| ((va.setWidth 32 &&& 31#32) <<< 16)
      ||| ((vb.setWidth 32 &&& 31#32) <<< 11) ||| (b.setWidth 32 <<< 10) := by
  apply BitVec.eq_of_getLsbD_eq
  intro i hi
  simp only [encodeVc, VReg.low5, BitVec.getLsbD_append, BitVec.getLsbD_or, BitVec.getLsbD_shiftLeft]
  interval_cases i <;> simp

/-- A word of form VX128_R with `Rc` at bit 27 as shifts and ors of its pieces. -/
theorem encodeVx128_bit27_eq_shiftOr : encodeVx128 .bit27 vd va vb b =
    0x18000080#32 ||| ((vd.setWidth 32 &&& 31#32) <<< 21) ||| ((va.setWidth 32 &&& 31#32) <<< 16)
      ||| ((vb.setWidth 32 &&& 31#32) <<< 11) ||| (((va.setWidth 32 >>> 6) &&& 1#32) <<< 10)
      ||| (((va.setWidth 32 >>> 5) &&& 1#32) <<< 5) ||| (b.setWidth 32 <<< 4)
      ||| (((vd.setWidth 32 >>> 5) &&& 3#32) <<< 2) ||| ((vb.setWidth 32 >>> 5) &&& 3#32) := by
  apply BitVec.eq_of_getLsbD_eq
  intro i hi
  simp only [encodeVx128, VReg.low5, VReg.high2, VReg.bit5, VReg.bit6, BitVec.getLsbD_append, BitVec.getLsbD_or,
    BitVec.getLsbD_shiftLeft]
  interval_cases i <;> simp

end

/-- A register number below 32 is its low five bits. -/
theorem VReg.setWidth_and_31 {r : VReg} (h : r.toNat < 32) : r.setWidth 32 &&& 31#32 = r.setWidth 32 := by
  revert h
  revert r
  decide

/-- Settles O7: the fields side by side are the spec's shifts and ors; in form VC no register number reaches
beyond its field. -/
theorem encoderIsTheSpecsFormula : Obligations.EncoderIsTheSpecsFormula := by
  refine ⟨fun rc vd va vb hd ha hb => ?_, fun vd va vb =>
    ⟨encodeVx128_bit27_eq_shiftOr vd va vb 0#1, encodeVx128_bit27_eq_shiftOr vd va vb 1#1⟩, by decide, by decide⟩
  rw [← VReg.setWidth_and_31 hd, ← VReg.setWidth_and_31 ha, ← VReg.setWidth_and_31 hb]
  exact ⟨encodeVc_eq_shiftOr vd va vb 0#1, encodeVc_eq_shiftOr vd va vb 1#1⟩

/-! ### The two places of `Rc` (C6) -/

/-- With `Rc` clear the two layouts of form VX128_R are one: bits 25 and 27 are both 0. -/
theorem encodeVx128_bit27_zero_eq_bit25_zero (vd va vb : VReg) :
    encodeVx128 .bit27 vd va vb 0#1 = encodeVx128 .bit25 vd va vb 0#1 := by
  apply BitVec.eq_of_getLsbD_eq
  intro i hi
  simp only [encodeVx128, BitVec.getLsbD_append]
  interval_cases i <;> simp

/-- The place of `Rc` changes the encoding of no instruction but `vcmpgefp128.`. -/
theorem encode_bit27_eq_bit25 {i : Instr} (h : ∀ vd va vb, i ≠ .vcmpgefp128Rc vd va vb) :
    encode .bit27 i = encode .bit25 i := by
  cases i with
  | vcmpgefp vd va vb => rfl
  | vcmpgefpRc vd va vb => rfl
  | vcmpgefp128 vd va vb => exact encodeVx128_bit27_zero_eq_bit25_zero vd va vb
  | vcmpgefp128Rc vd va vb => exact absurd rfl (h vd va vb)

/-- Settles O10: a word decodes to an instruction exactly when it is its encoding, and the encodings agree. -/
theorem rcBitAffectsOnlyTheVx128RecordForm : Obligations.RcBitAffectsOnlyTheVx128RecordForm := by
  intro w i h
  rw [decodeWord_eq_instr_iff, decodeWord_eq_instr_iff, encode_bit27_eq_bit25 h]

end Sys2Proof

namespace Sys2Proof.Machine

/-! ### A word outside both patterns (R39) -/

/-- Settles O40: the word is out of scope for the decoder, so the first step is refused, and the run with it. -/
theorem outOfScopeWordIsRefused : Obligations.OutOfScopeWordIsRefused := by
  intro s w n hpremises hrc hfetch hvc hvx128
  have hdecode : decodeWord s.params.rcBit w = .notInScope w := by
    rw [hrc]
    exact decodeWord_of_neither .bit27 hvc hvx128
  exact run_succ_of_refused (step_of_notInScope hpremises hfetch hdecode) n

end Sys2Proof.Machine
end

section
/-! PROOFS. The statements of spec/40_vector_compare.md about lanes alone: the classes and values of R50, the
input flush (R51), the comparison (R52), `CR6` from four masks (R54), and the corner cases of R60 that speak
of the comparison only. -/

namespace Sys2Proof.Machine

/-! ### The classes as ranges of the magnitude (R50) -/

section
variable (x : Word)

theorem f32Class_eq_zero_iff : f32Class x = .zero ↔ (f32Mag x).toNat = 0 := by
  rw [f32Class_eq]
  split_ifs <;> simp only [true_iff, false_iff] <;> omega

theorem f32Class_eq_denormal_iff :
    f32Class x = .denormal ↔ 0 < (f32Mag x).toNat ∧ (f32Mag x).toNat < 2 ^ 23 := by
  rw [f32Class_eq]
  split_ifs <;> simp only [true_iff, false_iff] <;> omega

theorem f32Class_eq_normal_iff :
    f32Class x = .normal ↔ 2 ^ 23 ≤ (f32Mag x).toNat ∧ (f32Mag x).toNat < 255 * 2 ^ 23 := by
  rw [f32Class_eq]
  split_ifs <;> simp only [true_iff, false_iff] <;> omega

theorem f32Class_eq_infinity_iff : f32Class x = .infinity ↔ (f32Mag x).toNat = 255 * 2 ^ 23 := by
  rw [f32Class_eq]
  split_ifs <;> simp only [true_iff, false_iff] <;> omega

theorem f32Class_eq_nan_iff : f32Class x = .nan ↔ 255 * 2 ^ 23 < (f32Mag x).toNat := by
  rw [f32Class_eq]
  split_ifs <;> simp only [true_iff, false_iff] <;> omega

/-- The exponent field of a word, in the source's formula, from the magnitude. -/
theorem exponent_eq_mag_div : x.toNat / 2 ^ 23 % 256 = (f32Mag x).toNat / 2 ^ 23 := by
  rw [f32Mag_toNat]
  omega

/-- The fraction field of a word, in the source's formula, from the magnitude. -/
theorem fraction_eq_mag_mod : x.toNat % 2 ^ 23 = (f32Mag x).toNat % 2 ^ 23 := by
  rw [f32Mag_toNat]
  omega

/-- The sign of a word is its bit 31. -/
theorem f32Sign_eq_zero_iff_bit31 : f32Sign x = 0#1 ↔ x.getLsbD 31 = false := by
  rw [f32Sign_eq_zero_iff, show x.getLsbD 31 = decide (2 ^ 31 ≤ x.toNat) from BitVec.getLsbD_last x,
    decide_eq_false_iff_not, not_le]

/-! ### The size of a value (R50) -/

/-- The units of a word by its magnitude: itself below the normal numbers. -/
theorem f32Units_of_mag_lt (h : (f32Mag x).toNat < 2 ^ 23) : f32Units x = (f32Mag x).toNat := by
  have he : f32Exp x = 0#8 := (f32Exp_eq_iff x 0#8).mpr (Nat.div_eq_of_lt h)
  rw [f32Units, if_pos he, f32Frac_toNat, Nat.mod_eq_of_lt h]

/-- The units of a word by its magnitude, from the normal numbers on. -/
theorem f32Units_of_le_mag (h : 2 ^ 23 ≤ (f32Mag x).toNat) :
    f32Units x = (2 ^ 23 + (f32Mag x).toNat % 2 ^ 23) * 2 ^ ((f32Mag x).toNat / 2 ^ 23 - 1) := by
  have he : f32Exp x ≠ 0#8 := by
    rw [ne_eq, f32Exp_eq_iff, BitVec.toNat_ofNat]
    omega
  rw [f32Units, if_neg he, f32Frac_toNat, f32Exp_toNat]

/-- A word's units are below the least units of the next exponent. -/
theorem f32Units_lt : f32Units x < 2 ^ 23 * 2 ^ ((f32Mag x).toNat / 2 ^ 23) := by
  rcases Nat.lt_or_ge (f32Mag x).toNat (2 ^ 23) with h | h
  · rw [f32Units_of_mag_lt x h, Nat.div_eq_of_lt h]
    omega
  · obtain ⟨e, he⟩ : ∃ e, (f32Mag x).toNat / 2 ^ 23 = e + 1 := Nat.exists_eq_add_one.mpr (by omega)
    have hf : (f32Mag x).toNat % 2 ^ 23 < 2 ^ 23 := Nat.mod_lt _ (by decide)
    rw [f32Units_of_le_mag x h, he, Nat.add_sub_cancel, Nat.pow_succ' (n := e), ← mul_assoc]
    exact Nat.mul_lt_mul_of_pos_right (by omega) (by positivity)

/-- A word's units are at least the least units of its exponent. -/
theorem le_f32Units (h : 2 ^ 23 ≤ (f32Mag x).toNat) :
    2 ^ 23 * 2 ^ ((f32Mag x).toNat / 2 ^ 23 - 1) ≤ f32Units x := by
  rw [f32Units_of_le_mag x h]
  exact Nat.mul_le_mul_right _ (Nat.le_add_right ..)

end

/-- A greater magnitude is a greater value: across exponents because an exponent's values all lie below those
of the next, within one exponent by the fraction. -/
theorem f32Units_lt_of_mag_lt {x y : Word} (h : (f32Mag x).toNat < (f32Mag y).toNat) : f32Units x < f32Units y := by
  rcases Nat.lt_or_ge (f32Mag y).toNat (2 ^ 23) with hy | hy
  · rwa [f32Units_of_mag_lt y hy, f32Units_of_mag_lt x (h.trans hy)]
  rcases (Nat.div_le_div_right (c := 2 ^ 23) h.le).lt_or_eq with he | he
  · calc f32Units x < 2 ^ 23 * 2 ^ ((f32Mag x).toNat / 2 ^ 23) := f32Units_lt x
      _ ≤ 2 ^ 23 * 2 ^ ((f32Mag y).toNat / 2 ^ 23 - 1) :=
        Nat.mul_le_mul_left _ (Nat.pow_le_pow_right (by decide) (Nat.le_sub_one_of_lt he))
      _ ≤ f32Units y := le_f32Units y hy
  · rw [f32Units_of_le_mag x (by omega), f32Units_of_le_mag y hy, he]
    exact Nat.mul_lt_mul_of_pos_right (by omega) (by positivity)

theorem f32Units_eq_of_mag_eq {x y : Word} (h : (f32Mag x).toNat = (f32Mag y).toNat) : f32Units x = f32Units y := by
  rcases Nat.lt_or_ge (f32Mag y).toNat (2 ^ 23) with hy | hy
  · rw [f32Units_of_mag_lt y hy, f32Units_of_mag_lt x (by omega), h]
  · rw [f32Units_of_le_mag y hy, f32Units_of_le_mag x (by omega), h]

/-- Values order as magnitudes do. -/
theorem f32Units_le_iff (x y : Word) : f32Units x ≤ f32Units y ↔ (f32Mag x).toNat ≤ (f32Mag y).toNat := by
  rcases Nat.lt_trichotomy (f32Mag x).toNat (f32Mag y).toNat with h | h | h
  · exact iff_of_true (f32Units_lt_of_mag_lt h).le h.le
  · exact iff_of_true (f32Units_eq_of_mag_eq h).le h.le
  · exact iff_of_false (f32Units_lt_of_mag_lt h).not_ge h.not_ge

theorem f32Units_eq_zero_iff (x : Word) : f32Units x = 0 ↔ (f32Mag x).toNat = 0 := by
  have h := f32Units_le_iff x 0#32
  rwa [show f32Units 0#32 = 0 by decide, show (f32Mag 0#32).toNat = 0 by decide, Nat.le_zero, Nat.le_zero] at h

/-! ### Signed sizes -/

/-- The signed values order as the integer form does: by the magnitudes on one side of zero, by the signs
across it, and zero is the one magnitude that both signs share. -/
theorem f32Signed_units_le_iff (x y : Word) :
    f32Signed x (f32Units x) ≤ f32Signed y (f32Units y) ↔ f32Ord x ≤ f32Ord y := by
  have hxy := f32Units_le_iff x y
  have hyx := f32Units_le_iff y x
  have hx := f32Units_eq_zero_iff x
  have hy := f32Units_eq_zero_iff y
  unfold f32Signed f32Ord
  split_ifs <;> omega

/-! ### The value of a word (R50) -/

section
variable {x : Word}

theorem f32Value_of_nan (h : f32Class x = .nan) : f32Value x = .nan := by simp [f32Value, h]

theorem f32Value_of_infinity (h : f32Class x = .infinity) :
    f32Value x = if f32Sign x = 0#1 then .posInf else .negInf := by simp [f32Value, h]

/-- The value of a zero, a denormal or a normal number. -/
theorem f32Value_of_finite (h : (f32Mag x).toNat < 255 * 2 ^ 23) :
    f32Value x = .finite (f32Signed x (f32Units x)) := by
  unfold f32Value
  cases hc : f32Class x with
  | zero => rfl
  | denormal => rfl
  | normal => rfl
  | infinity => exact absurd ((f32Class_eq_infinity_iff x).mp hc) h.ne
  | nan => exact absurd ((f32Class_eq_nan_iff x).mp hc) h.not_gt

end

/-! ### The comparison is the order of values (R52) -/

theorem f32Ge_of_not_nan {a b : Word} (ha : f32IsNaN a = false) (hb : f32IsNaN b = false) :
    f32Ge a b = true ↔ f32Ord b ≤ f32Ord a := by
  simp [f32Ge_iff, ha, hb]

/-- On values that are numbers, the order of R52 "in words" is the order of the integer form: finite values by
their signed sizes, and an infinity lies beyond every other integer. -/
theorem F32Value.ge_f32Value_iff {a b : Word} (ha : f32IsNaN a = false) (hb : f32IsNaN b = false) :
    F32Value.ge (f32Value a) (f32Value b) = true ↔ f32Ord b ≤ f32Ord a := by
  rw [f32IsNaN_eq_false_iff] at ha hb
  rcases ha.lt_or_eq with ha | ha <;> rcases hb.lt_or_eq with hb | hb
  · rw [f32Value_of_finite ha, f32Value_of_finite hb, ← f32Signed_units_le_iff]
    exact decide_eq_true_iff
  · rw [f32Value_of_finite ha, f32Value_of_infinity ((f32Class_eq_infinity_iff b).mpr hb), f32Ord, f32Ord]
    split_ifs <;> simp [F32Value.ge] <;> omega
  · rw [f32Value_of_infinity ((f32Class_eq_infinity_iff a).mpr ha), f32Value_of_finite hb, f32Ord, f32Ord]
    split_ifs <;> simp [F32Value.ge] <;> omega
  · rw [f32Value_of_infinity ((f32Class_eq_infinity_iff a).mpr ha),
      f32Value_of_infinity ((f32Class_eq_infinity_iff b).mpr hb), f32Ord, f32Ord]
    split_ifs <;> simp [F32Value.ge] <;> omega

theorem F32Value.ge_nan (v : F32Value) : F32Value.ge v .nan = false := by cases v <;> rfl

/-- Settles O14: a NaN makes both sides false, and on numbers both are the order of the integer form. -/
theorem laneCompareIsRealOrder : Obligations.LaneCompareIsRealOrder := by
  intro a b
  have nan_value {x : Word} (h : f32IsNaN x = true) : f32Value x = .nan :=
    f32Value_of_nan ((f32Class_eq_nan_iff x).mpr ((f32IsNaN_iff x).mp h))
  cases ha : f32IsNaN a with
  | true => rw [f32Ge_of_nan (.inl ha), nan_value ha]; rfl
  | false =>
    cases hb : f32IsNaN b with
    | true => rw [f32Ge_of_nan (.inr hb), nan_value hb, F32Value.ge_nan]
    | false => rw [Bool.eq_iff_iff, f32Ge_of_not_nan ha hb, F32Value.ge_f32Value_iff ha hb]

/-! ### The table of classes and values (R50) -/

/-- The sign rule of R50 on a size, as a rational number. -/
theorem cast_f32Signed (x : Word) (n : Nat) :
    ((f32Signed x n : Int) : ℚ) = (if x.getLsbD 31 = true then -1 else 1) * n := by
  unfold f32Signed
  simp only [f32Sign_eq_zero_iff_bit31]
  cases x.getLsbD 31 <;> simp

/-- A denormal's units are its fraction times the least normal number. -/
theorem denormal_units_div (f : ℚ) : f / 2 ^ 149 = 2 ^ (-126 : ℤ) * (f / 2 ^ 23) := by
  norm_num
  ring

/-- A normal number's units of `2 ^ (-149)` are R50's value. -/
theorem normal_units_div (e f : ℕ) (h : 1 ≤ e) :
    (((2 ^ 23 + f) * 2 ^ (e - 1) : ℕ) : ℚ) / 2 ^ 149 = (2 : ℚ) ^ ((e : ℤ) - 127) * (1 + f / 2 ^ 23) := by
  have he : (2 : ℚ) ^ ((e : ℤ) - 127) = 2 ^ (e - 1) / 2 ^ 126 := by
    rw [show (e : ℤ) - 127 = ((e - 1 : ℕ) : ℤ) - (126 : ℕ) by omega, zpow_sub₀ two_ne_zero,
      zpow_natCast, zpow_natCast]
  rw [he]
  push_cast
  ring

/-- Settles O12: the classes are ranges of the magnitude, and each finite value's units are the table's. -/
theorem laneClassesAndValues : Obligations.LaneClassesAndValues := by
  intro x e f sgn
  have he : e = (f32Mag x).toNat / 2 ^ 23 := exponent_eq_mag_div x
  have hf : f = (f32Mag x).toNat % 2 ^ 23 := fraction_eq_mag_mod x
  have hm := f32Mag_lt x
  have finite_value {n : ℕ} (hlt : (f32Mag x).toNat < 255 * 2 ^ 23) (hn : f32Units x = n) {q : ℚ}
      (hq : sgn * n / 2 ^ 149 = q) : ∃ u : Int, f32Value x = .finite u ∧ (u : ℚ) / 2 ^ 149 = q :=
    ⟨_, f32Value_of_finite hlt, by rw [cast_f32Signed, hn]; exact hq⟩
  simp only [f32IsNaN_iff, f32IsDenormal_iff, f32Class_eq_zero_iff, f32Class_eq_denormal_iff, f32Class_eq_normal_iff]
  refine ⟨by omega, by omega, by omega, by rw [f32Class_eq_infinity_iff]; omega, by rw [f32Class_eq_nan_iff]; omega,
    (f32Class_eq_nan_iff x).symm, trivial, fun hzero => ?_, fun ⟨_, hlt⟩ => ?_, fun ⟨hle, hlt⟩ => ?_,
    fun hinf => ?_, f32Value_of_nan⟩
  · rw [f32Value_of_finite (by omega), (f32Units_eq_zero_iff x).mpr hzero]
    simp [f32Signed]
  · refine finite_value (n := f) (by omega) ((f32Units_of_mag_lt x hlt).trans (by omega)) ?_
    rw [mul_div_assoc, denormal_units_div, mul_assoc]
  · refine finite_value (n := (2 ^ 23 + f) * 2 ^ (e - 1)) hlt (by rw [f32Units_of_le_mag x hle, he, hf]) ?_
    rw [mul_div_assoc, normal_units_div (h := by omega), mul_assoc]
  · rw [f32Value_of_infinity hinf]
    simp only [f32Sign_eq_zero_iff_bit31]
    cases x.getLsbD 31 <;> rfl

/-! ### The integer form (R52) -/

/-- A word that is no NaN lies between the infinities. -/
theorem f32Ord_bounds {x : Word} (h : f32IsNaN x = false) :
    -(255 * 2 ^ 23) ≤ f32Ord x ∧ f32Ord x ≤ 255 * 2 ^ 23 := by
  rw [f32IsNaN_eq_false_iff] at h
  unfold f32Ord
  split <;> omega

theorem f32IsNaN_of_zero {x : Word} (h : f32Class x = .zero) : f32IsNaN x = false := by
  rw [f32Class_eq_zero_iff] at h
  rw [f32IsNaN_eq_false_iff]
  omega

theorem f32Ord_of_zero {x : Word} (h : f32Class x = .zero) : f32Ord x = 0 := by
  rw [f32Class_eq_zero_iff] at h
  unfold f32Ord
  split <;> omega

/-- Only zero has two words of one integer form. -/
theorem eq_of_f32Ord_eq {x y : Word} (h : f32Ord x = f32Ord y) (hy : f32Ord y ≠ 0) : x = y := by
  unfold f32Ord at h hy
  split_ifs at h hy with hsx hsy hsy
  · exact eq_of_sign_mag (iff_of_true hsx hsy) (by omega)
  · omega
  · omega
  · exact eq_of_sign_mag (iff_of_false hsx hsy) (by omega)

/-- A word compares with itself unless it is a NaN. -/
theorem f32Ge_self (x : Word) : f32Ge x x = true ↔ f32IsNaN x = false := by
  simp [f32Ge_iff]

theorem f32Ge_posInf {x : Word} (h : f32IsNaN x = false) : f32Ge 0x7F800000#32 x = true := by
  rw [f32Ge_of_not_nan (by decide) h]
  exact (f32Ord_bounds h).2

theorem f32Ge_negInf {x : Word} (h : f32IsNaN x = false) : f32Ge x 0xFF800000#32 = true := by
  rw [f32Ge_of_not_nan h (by decide)]
  exact (f32Ord_bounds h).1

/-- Zeros of either sign are equal. -/
theorem f32Ge_of_zeros {a b : Word} (ha : f32Class a = .zero) (hb : f32Class b = .zero) : f32Ge a b = true := by
  rw [f32Ge_of_not_nan (f32IsNaN_of_zero ha) (f32IsNaN_of_zero hb), f32Ord_of_zero ha, f32Ord_of_zero hb]

/-- Settles O15: the integers are totally ordered, both zeros are 0, and the infinities bound the rest. -/
theorem laneCompareConsequences : Obligations.LaneCompareConsequences := by
  refine ⟨f32Ge_self, fun a b => ?_, by decide, by decide, fun x h => ⟨f32Ge_posInf h, f32Ge_negInf h⟩⟩
  have htotal := le_total (f32Ord b) (f32Ord a)
  rw [f32Ge_iff, f32Ge_iff]
  tauto

/-- Settles O29: zeros have the integer 0, and no other word has an infinity's integer. -/
theorem zerosAndInfinities : Obligations.ZerosAndInfinities := by
  refine ⟨fun _ _ => f32Ge_of_zeros, fun x hx => ⟨f32Ge_posInf hx, f32Ge_negInf hx, ⟨fun h => ?_, ?_⟩,
    ⟨fun h => ?_, ?_⟩⟩⟩
  · rw [f32Ge_of_not_nan (by decide) hx] at h
    exact eq_of_f32Ord_eq (le_antisymm h (f32Ord_bounds hx).1) (by decide)
  · rintro rfl
    decide
  · rw [f32Ge_of_not_nan hx (by decide)] at h
    exact eq_of_f32Ord_eq (le_antisymm (f32Ord_bounds hx).2 h) (by decide)
  · rintro rfl
    decide

/-! ### The comparison under the flush (R51, R60) -/

/-- Under `NJ` the integer form of a word below the normal numbers is 0, and every other is as it was. -/
theorem f32Ord_flushIn_true (x : Word) : f32Ord (flushIn true x) =
    if -(2 ^ 23) < f32Ord x ∧ f32Ord x < 2 ^ 23 then 0 else f32Ord x := by
  simp only [f32Ord, f32Sign_flushIn, f32Mag_flushIn, true_and]
  split_ifs <;> omega

/-- Under `NJ` a denormal and a zero are read as a zero. -/
theorem f32Class_flushIn_true {x : Word} (h : f32IsDenormal x = true ∨ f32Class x = .zero) :
    f32Class (flushIn true x) = .zero := by
  rw [f32IsDenormal_iff, f32Class_eq_zero_iff] at h
  rw [f32Class_eq_zero_iff, f32Mag_flushIn, if_pos ⟨rfl, by omega⟩]

/-- Every zero compares as the zero word does, on either side. -/
theorem f32Ge_zero_congr {z : Word} (hz : f32Class z = .zero) (x : Word) :
    f32Ge z x = f32Ge 0#32 x ∧ f32Ge x z = f32Ge x 0#32 := by
  have hnan : f32IsNaN z = f32IsNaN 0#32 := f32IsNaN_of_zero hz
  have hord : f32Ord z = f32Ord 0#32 := f32Ord_of_zero hz
  simp only [f32Ge, hnan, hord, and_self]

theorem f32IsDenormal_of_normal {x : Word} (h : f32Class x = .normal) : f32IsDenormal x = false := by
  rw [f32Class_eq_normal_iff] at h
  rw [← Bool.not_eq_true, f32IsDenormal_iff]
  omega

/-- Settles O30: a flushed denormal is a zero; unflushed, the comparison is that of the values. -/
theorem denormalsCompareAsZero : Obligations.DenormalsCompareAsZero := by
  refine ⟨fun d x hd hx => ?_, fun d n hd hn => ?_, fun d x _ _ => ?_⟩
  · have hd0 := f32Class_flushIn_true (.inl hd)
    have hx0 := f32Class_flushIn_true hx
    exact ⟨f32Ge_of_zeros hd0 hx0, f32Ge_of_zeros hx0 hd0⟩
  · rw [flushIn_of_not_denormal (f32IsDenormal_of_normal hn)]
    exact f32Ge_zero_congr (f32Class_flushIn_true (.inl hd)) n
  · rw [flushIn_false, flushIn_false]
    exact laneCompareIsRealOrder d x

/-- The flush keeps every true lane true: it moves integers to 0 from both sides of it, so their order stays. -/
theorem f32Ge_flushIn_true_of_f32Ge {a b : Word} (h : f32Ge a b = true) :
    f32Ge (flushIn true a) (flushIn true b) = true := by
  obtain ⟨ha, hb, hord⟩ := (f32Ge_iff a b).mp h
  rw [f32Ge_iff, f32IsNaN_flushIn, f32IsNaN_flushIn, f32Ord_flushIn_true, f32Ord_flushIn_true]
  refine ⟨ha, hb, ?_⟩
  split_ifs <;> omega

/-- A denormal and a zero, in the order that is false unflushed: below a zero when negative, above it when
positive. -/
theorem f32Ge_denormal_zero {a z : Word} (ha : f32IsDenormal a = true) (hz : f32Class z = .zero) :
    (f32Sign a = 1#1 → f32Ge a z = false) ∧ (f32Sign a = 0#1 → f32Ge z a = false) := by
  have hm := ((f32IsDenormal_iff a).mp ha).1
  simp only [← Bool.not_eq_true, f32Ge_iff, f32Ord_of_zero hz]
  refine ⟨fun hs h => ?_, fun hs h => ?_⟩
  · rw [f32Ord_of_neg (by simp [hs])] at h
    omega
  · rw [f32Ord_of_pos hs] at h
    omega

/-- Settles O31: a true lane stays true, so where the two values of `NJ` differ the lane turned true; and without
a denormal the inputs are the same. -/
theorem flushOnlyTurnsLanesTrue : Obligations.FlushOnlyTurnsLanesTrue := by
  simp only [Obligations.FlushOnlyTurnsLanesTrue, flushIn_false]
  refine ⟨fun a b => f32Ge_flushIn_true_of_f32Ge, fun a b => ⟨fun hne => ?_, ?_⟩, fun a z ha hz => ?_⟩
  · have hdenormal : f32IsDenormal a = true ∨ f32IsDenormal b = true := by
      by_contra hno
      rw [not_or, Bool.not_eq_true, Bool.not_eq_true] at hno
      exact hne (by rw [flushIn_of_not_denormal hno.1, flushIn_of_not_denormal hno.2])
    cases hf : f32Ge a b with
    | true => exact absurd (hf.trans (f32Ge_flushIn_true_of_f32Ge hf).symm) hne
    | false => exact ⟨hdenormal, rfl, by simpa [hf] using hne⟩
  · rintro ⟨-, hf, ht⟩
    simp [hf, ht]
  · have ha0 := f32Class_flushIn_true (.inl ha)
    have hz0 := f32Class_flushIn_true (.inr hz)
    obtain ⟨hneg, hpos⟩ := f32Ge_denormal_zero ha hz
    exact ⟨fun hs => ⟨hneg hs, f32Ge_of_zeros ha0 hz0⟩, fun hs => ⟨hpos hs, f32Ge_of_zeros hz0 ha0⟩⟩

/-! ### `CR6` from four masks (R54) -/

theorem allFour_iff (m m0 m1 m2 m3 : Word) : allFour m m0 m1 m2 m3 = true ↔
    m0 = m ∧ m1 = m ∧ m2 = m ∧ m3 = m := by
  simp [allFour, and_assoc]

/-- Four masks are not both all true and all false. -/
theorem allFour_maskFalse_of_maskTrue {m0 m1 m2 m3 : Word} (h : allFour maskTrue m0 m1 m2 m3 = true) :
    allFour maskFalse m0 m1 m2 m3 = false := by
  rw [← Bool.not_eq_true, allFour_iff, ((allFour_iff ..).mp h).1]
  exact fun h' => absurd h'.1 (by decide)

/-- The value of `CR6` by the two tests of the masks. -/
theorem cr6FromMask_eq (m0 m1 m2 m3 : Word) : cr6FromMask m0 m1 m2 m3 =
    if allFour maskTrue m0 m1 m2 m3 = true then 0b1000#4
    else if allFour maskFalse m0 m1 m2 m3 = true then 0b0010#4 else 0b0000#4 := by
  unfold cr6FromMask
  cases ht : allFour maskTrue m0 m1 m2 m3 with
  | true => rw [allFour_maskFalse_of_maskTrue ht]; rfl
  | false => cases allFour maskFalse m0 m1 m2 m3 <;> rfl

/-- `CR6` is one of three values (R54's own inference). -/
theorem cr6FromMask_cases (m0 m1 m2 m3 : Word) : cr6FromMask m0 m1 m2 m3 = 0b1000#4 ∨
    cr6FromMask m0 m1 m2 m3 = 0b0010#4 ∨ cr6FromMask m0 m1 m2 m3 = 0b0000#4 := by
  rw [cr6FromMask_eq]
  split_ifs <;> simp

theorem cr6FromMask_eq_allTrue_iff (m0 m1 m2 m3 : Word) :
    cr6FromMask m0 m1 m2 m3 = 0b1000#4 ↔ allFour maskTrue m0 m1 m2 m3 = true := by
  rw [cr6FromMask_eq]
  split_ifs with ht hf <;> simp [ht]

theorem cr6FromMask_eq_allFalse_iff (m0 m1 m2 m3 : Word) :
    cr6FromMask m0 m1 m2 m3 = 0b0010#4 ↔ allFour maskFalse m0 m1 m2 m3 = true := by
  rw [cr6FromMask_eq]
  split_ifs with ht hf
  · simp [allFour_maskFalse_of_maskTrue ht]
  · simp [hf]
  · simp [hf]

/-- Settles O17: each bit is a test of the masks, and the two tests exclude each other. -/
theorem cr6FromMasks : Obligations.Cr6FromMasks := by
  intro m0 m1 m2 m3
  rw [cr6Lt_cr6FromMask, cr6Eq_cr6FromMask]
  exact ⟨allFour_iff .., cr6Gt_cr6FromMask .., allFour_iff .., cr6So_cr6FromMask .., cr6FromMask_cases ..⟩

end Sys2Proof.Machine
end

section
/-! PROOFS. The statements of spec/40_vector_compare.md about the instructions: the lanes of the result (R53), the
effect of each instruction and what it leaves unchanged (R55 to R59, R61), and the corner cases of R60 and R62
that speak of a whole instruction. -/

namespace Sys2Proof.Machine

/-! ### What an instruction answers -/

/-- The one next state of an instruction is that of the common operation. -/
theorem exec_eq_next_iff (i : Instr) (s t : State) :
    exec i s = .next t ↔ vcmpge i.isRecord i.dest i.srcA i.srcB s = t := by
  simp [exec_eq_vcmpge]

/-- The common operation has the effect the rules give it, field by field. -/
theorem vcmpge_effect (rc : Bool) (vd va vb : VReg) (s : State) :
    VcmpgeEffect rc vd va vb s (vcmpge rc vd va vb s) where
  resultLanes := vcmpge_lane_dest rc vd va vb s
  otherRegisters _ := vcmpge_readVr_of_ne rc vd va vb s
  cr6 := vcmpge_cr6 rc vd va vb s
  pc := vcmpge_pc rc vd va vb s
  vscr := vcmpge_vscr rc vd va vb s
  mem := vcmpge_mem rc vd va vb s
  text := vcmpge_text rc vd va vb s
  params := vcmpge_params rc vd va vb s
  premises := vcmpge_premises rc vd va vb s

/-- Every instruction completes, with the effect of the common operation on its operands. -/
theorem exec_effect (i : Instr) (s : State) :
    ∃ t, exec i s = .next t ∧ VcmpgeEffect i.isRecord i.dest i.srcA i.srcB s t :=
  ⟨_, exec_eq_vcmpge i s, vcmpge_effect ..⟩

/-- Settles O18: each instruction is the common operation on its operands. -/
theorem commonOperation : Obligations.CommonOperation := fun vd va vb s =>
  ⟨exec_effect (.vcmpgefp vd va vb) s, exec_effect (.vcmpgefpRc vd va vb) s, exec_effect (.vcmpgefp128 vd va vb) s,
    exec_effect (.vcmpgefp128Rc vd va vb) s⟩

/-- Settles O23: the fields no instruction writes, and the effect's clauses for the others. -/
theorem instructionFrame : Obligations.InstructionFrame := by
  intro i s t h
  obtain ⟨hvscr, hmem, htext, hparams, hpremises⟩ := (State.constants_eq_iff s t).mp (exec_constants h)
  obtain rfl := (exec_eq_next_iff i s t).mp h
  refine ⟨fun n => vcmpge_readVr_of_ne _ _ _ _ s, fun hrecord => ?_, by rw [hvscr], by rw [hvscr],
    fun a => by rw [hmem], hmem, htext, hparams, hpremises, vcmpge_pc ..⟩
  rw [vcmpge_cr6, hrecord]
  rfl

/-- Settles O13: the flush makes a denormal a zero of its sign and no other change; and the registers written are
the destination alone. -/
theorem denormalInputFlush : Obligations.DenormalInputFlush := by
  refine ⟨fun x hx => ⟨f32Class_flushIn_true (.inl hx), ?_⟩, fun x hx => flushIn_of_not_denormal hx true,
    flushIn_false,
    fun i s => ⟨_, exec_eq_vcmpge i s, vcmpge_readVr_of_ne _ _ _ _ s, vcmpge_readVr_of_ne _ _ _ _ s⟩⟩
  have hsign := f32Sign_flushIn true x
  rw [f32Sign_eq_zero_iff_bit31, f32Sign_eq_zero_iff_bit31] at hsign
  exact Bool.eq_iff_iff.mpr (by simpa using not_congr hsign)

/-- Settles O16: a result lane is the mask of three things, and equal things give equal masks. -/
theorem laneMaskPerLane : Obligations.LaneMaskPerLane := by
  refine fun i s => ⟨_, exec_eq_vcmpge i s, vcmpge_lane_dest _ _ _ _ s, fun j s' t' k h hnj ha hb => ?_⟩
  obtain rfl := (exec_eq_next_iff j s' t').mp h
  rw [vcmpge_lane_dest, vcmpge_lane_dest, hnj, ha, hb]

/-! ### The lanes and `CR6` of operands written out -/

section
variable (vd va vb : VReg) {s : State} {a0 a1 a2 a3 b0 b1 b2 b3 : Word}

/-- The destination for sources given by their lanes. -/
theorem vcmpge_readVr_of_lanes (rc : Bool) (ha : s.readVr va = lanes a0 a1 a2 a3)
    (hb : s.readVr vb = lanes b0 b1 b2 b3) :
    (vcmpge rc vd va vb s).readVr vd = lanes (laneMask s.vscr.nj a0 b0) (laneMask s.vscr.nj a1 b1)
      (laneMask s.vscr.nj a2 b2) (laneMask s.vscr.nj a3 b3) := by
  rw [vcmpge_readVr_dest, ha, hb]
  simp

/-- `CR6` after a record form whose destination is given by its lanes. -/
theorem vcmpge_cr6_of_lanes {m0 m1 m2 m3 : Word} (h : (vcmpge true vd va vb s).readVr vd = lanes m0 m1 m2 m3) :
    (vcmpge true vd va vb s).cr6 = cr6FromMask m0 m1 m2 m3 := by
  rw [vcmpge_cr6, h]
  simp

end

theorem vcmpge_false_cr6 (vd va vb : VReg) (s : State) : (vcmpge false vd va vb s).cr6 = s.cr6 := by
  rw [vcmpge_cr6, if_neg Bool.false_ne_true]

/-- The mask of a lane with a NaN in either operand is zero (R53). -/
theorem laneMask_of_nan {a b : Word} (nj : Bool) (h : f32IsNaN a = true ∨ f32IsNaN b = true) :
    laneMask nj a b = maskFalse := by
  rw [laneMask, f32Ge_of_nan (by simpa [f32IsNaN_flushIn] using h)]
  rfl

/-! ### The instructions, from their words to their effects (R56 to R59) -/

/-- Settles O19: the words and fields of the opcode map, the common effect, and the example lane by lane. -/
theorem vcmpgefpInstruction : Obligations.VcmpgefpInstruction := by
  refine ⟨fun rc w hw => ?_, fun vd va vb => exec_effect (.vcmpgefp vd va vb), fun s hnj ha hb =>
    ⟨_, by decide, exec_eq_vcmpge .., ?_, vcmpge_false_cr6 .., vcmpge_pc ..⟩⟩
  · obtain ⟨vd, va, vb, hd⟩ := (decodesTo_vcmpgefp_iff rc w).mpr hw
    obtain ⟨rfl, rfl, rfl⟩ := vcFields_of_decodeWord (.inl hd)
    exact ⟨_, _, _, toNat_vcVD w, toNat_vcVA w, toNat_vcVB w, hd⟩
  · refine (vcmpge_readVr_of_lanes 3 1 2 false ha hb).trans ?_
    rw [hnj]
    decide

/-- Settles O20: as for `vcmpgefp`, with `CR6` from the lanes of each example's result. -/
theorem vcmpgefpRecordInstruction : Obligations.VcmpgefpRecordInstruction := by
  refine ⟨fun rc w hw => ?_, fun vd va vb => exec_effect (.vcmpgefpRc vd va vb), fun s hnj ha hb => ?_,
    fun s hnj ha hb => ?_⟩
  · obtain ⟨vd, va, vb, hd⟩ := (decodesTo_vcmpgefpRc_iff rc w).mpr hw
    obtain ⟨rfl, rfl, rfl⟩ := vcFields_of_decodeWord (.inr hd)
    exact ⟨_, _, _, toNat_vcVD w, toNat_vcVA w, toNat_vcVB w, hd⟩
  · have hv := vcmpge_readVr_of_lanes 3 1 2 true ha hb
    rw [hnj] at hv
    exact ⟨_, by decide, exec_eq_vcmpge .., hv.trans (by decide), (vcmpge_cr6_of_lanes 3 1 2 hv).trans (by decide)⟩
  · have hv := vcmpge_readVr_of_lanes 3 1 2 true ha hb
    rw [hnj] at hv
    exact ⟨_, exec_eq_vcmpge .., hv.trans (by decide), (vcmpge_cr6_of_lanes 3 1 2 hv).trans (by decide)⟩

/-- Settles O21: the words and pieces of the opcode map, the common effect, and the example for each `NJ`. -/
theorem vcmpgefp128Instruction : Obligations.Vcmpgefp128Instruction := by
  refine ⟨fun rc w hw => ?_, fun vd va vb => exec_effect (.vcmpgefp128 vd va vb), fun s ha hb =>
    ⟨_, by decide, exec_eq_vcmpge .., ?_, vcmpge_false_cr6 ..⟩⟩
  · obtain ⟨vd, va, vb, hd⟩ := (decodesTo_vcmpgefp128_iff rc w).mpr (hw.trans (by cases rc <;> rfl))
    obtain ⟨rfl, rfl, rfl⟩ := vx128Fields_of_decodeWord (.inl hd)
    exact ⟨_, _, _, setWidth_vx128VD w, setWidth_vx128VA w, setWidth_vx128VB w, hd⟩
  · refine (vcmpge_readVr_of_lanes 70 101 33 false ha hb).trans ?_
    cases s.vscr.nj <;> decide

/-- Settles O22: as for `vcmpgefp128`, and a NaN in every lane of one operand makes every lane false whatever the
other holds. -/
theorem vcmpgefp128RecordInstruction : Obligations.Vcmpgefp128RecordInstruction := by
  refine ⟨fun w hw => ?_, fun vd va vb => exec_effect (.vcmpgefp128Rc vd va vb), fun s _ ha => ?_⟩
  · obtain ⟨vd, va, vb, hd⟩ := (decodesTo_vcmpgefp128Rc_iff .bit27 w).mpr hw
    obtain ⟨rfl, rfl, rfl⟩ := vx128Fields_of_decodeWord (.inr hd)
    exact ⟨_, _, _, setWidth_vx128VD w, setWidth_vx128VA w, setWidth_vx128VB w, hd⟩
  · have hv := vcmpge_readVr_of_lanes 70 101 33 true ha (lanes_lane (s.readVr 33)).symm
    rw [laneMask_of_nan _ (.inl (by decide)), laneMask_of_nan _ (.inl (by decide)),
      laneMask_of_nan _ (.inl (by decide)), laneMask_of_nan _ (.inl (by decide))] at hv
    exact ⟨_, by decide, exec_eq_vcmpge .., hv, (vcmpge_cr6_of_lanes 70 101 33 hv).trans (by decide)⟩

/-! ### Corner cases of a whole instruction (R60, R62) -/

/-- Settles O28: the mask of a lane with a NaN is zero. -/
theorem nanLaneIsFalse : Obligations.NanLaneIsFalse := fun i s k h =>
  ⟨_, exec_eq_vcmpge i s, (vcmpge_lane_dest _ _ _ _ s k).trans (laneMask_of_nan _ h)⟩

/-- The mask of a lane compared with itself: all ones unless the lane is a NaN. -/
theorem laneMask_self (nj : Bool) (x : Word) :
    laneMask nj x x = if f32IsNaN x = true then maskFalse else maskTrue := by
  rw [laneMask]
  simp only [f32Ge_self, f32IsNaN_flushIn]
  cases f32IsNaN x <;> rfl

theorem laneMask_self_eq_maskTrue_iff (nj : Bool) (x : Word) : laneMask nj x x = maskTrue ↔ f32IsNaN x = false := by
  rw [laneMask_self]
  cases f32IsNaN x <;> decide

theorem laneMask_self_eq_maskFalse_iff (nj : Bool) (x : Word) : laneMask nj x x = maskFalse ↔ f32IsNaN x = true := by
  rw [laneMask_self]
  cases f32IsNaN x <;> decide

section
variable (vd va vb : VReg) (s : State)

/-- `CR6.lt` after a record form is set exactly when every result lane is true (R54). -/
theorem cr6Lt_vcmpge : cr6Lt (vcmpge true vd va vb s).cr6 = true ↔
    ∀ k : Fin 4, lane ((vcmpge true vd va vb s).readVr vd) k = maskTrue := by
  rw [vcmpge_cr6, if_pos rfl, cr6Lt_cr6FromMask, allFour_lanes_iff]

/-- `CR6.eq` after a record form is set exactly when every result lane is false (R54). -/
theorem cr6Eq_vcmpge : cr6Eq (vcmpge true vd va vb s).cr6 = true ↔
    ∀ k : Fin 4, lane ((vcmpge true vd va vb s).readVr vd) k = maskFalse := by
  rw [vcmpge_cr6, if_pos rfl, cr6Eq_cr6FromMask, allFour_lanes_iff]

end

/-- Settles O32: with one register as both sources each result lane is the mask of a lane with itself. -/
theorem sameRegisterTestsForNan : Obligations.SameRegisterTestsForNan := by
  intro i s hsrc
  have htrue (k : Fin 4) : lane ((vcmpge i.isRecord i.dest i.srcA i.srcB s).readVr i.dest) k = maskTrue ↔
      f32IsNaN (lane (s.readVr i.srcA) k) = false := by
    rw [vcmpge_lane_dest, ← hsrc, laneMask_self_eq_maskTrue_iff]
  have hfalse (k : Fin 4) : lane ((vcmpge i.isRecord i.dest i.srcA i.srcB s).readVr i.dest) k = maskFalse ↔
      f32IsNaN (lane (s.readVr i.srcA) k) = true := by
    rw [vcmpge_lane_dest, ← hsrc, laneMask_self_eq_maskFalse_iff]
  refine ⟨_, exec_eq_vcmpge i s, htrue, fun hrecord => ?_⟩
  rw [hrecord] at htrue hfalse ⊢
  exact ⟨(cr6Lt_vcmpge ..).trans (forall_congr' htrue), (cr6Eq_vcmpge ..).trans (forall_congr' hfalse)⟩

theorem lane_not (v : Vec) (i : Fin 4) : lane (~~~ v) i = ~~~ (lane v i) := by
  apply BitVec.eq_of_getLsbD_eq
  intro k hk
  have hlt : 96 - 32 * i.val + k < 128 := by omega
  simp only [BitVec.getLsbD_not, lane_getLsbD _ i hk, hk, hlt, decide_true]

/-- Settles O33: a true lane is a NaN and a false lane is a zero, so each mask with itself gives the other. -/
theorem maskInversion : Obligations.MaskInversion := by
  refine fun i s hsrc hmask => ⟨_, exec_eq_vcmpge i s, eq_of_lane_eq fun k => ?_⟩
  rw [vcmpge_lane_dest, ← hsrc, laneMask_self, lane_not]
  rcases hmask k with h | h <;> rw [h] <;> decide

/-- A register has one word in every lane exactly when it is that word four times. -/
theorem forall_lane_eq_iff (v : Vec) (m : Word) : (∀ k : Fin 4, lane v k = m) ↔ v = lanes m m m m := by
  constructor
  · intro h
    rw [← lanes_lane v, h 0, h 1, h 2, h 3]
  · rintro rfl
    exact (allFour_lanes_iff m _).mp (by simp [allFour])

/-- Settles O34: `CR6` is that of the result's lanes, and the result with all lanes true, or all false, is one
register value. -/
theorem cr6AfterRecordForm : Obligations.Cr6AfterRecordForm := by
  intro i s hrecord
  refine ⟨_, exec_eq_vcmpge i s, ?_⟩
  rw [hrecord, vcmpge_cr6, if_pos rfl]
  refine ⟨cr6FromMask_cases .., ?_, ?_⟩
  · rw [cr6FromMask_eq_allTrue_iff, allFour_lanes_iff]
    exact forall_lane_eq_iff _ maskTrue
  · rw [cr6FromMask_eq_allFalse_iff, allFour_lanes_iff]
    exact forall_lane_eq_iff _ maskFalse

/-- Settles O35: without `NJ`, or without a denormal in the lane, the flush gives back its inputs. -/
theorem snapshotAgreesWithoutDenormals : Obligations.SnapshotAgreesWithoutDenormals := by
  refine fun i s h => ⟨_, exec_eq_vcmpge i s, fun k => ?_⟩
  rw [vcmpge_lane_dest, laneMask_eq]
  rcases h with hnj | hdenormal
  · rw [hnj, flushIn_false, flushIn_false]
  · obtain ⟨ha, hb⟩ := hdenormal k
    rw [flushIn_of_not_denormal ha, flushIn_of_not_denormal hb]

end Sys2Proof.Machine
end

section
/-! PROOFS. The statements of spec/60_exceptions.md: no instruction traps (R70), and a step outside the premises
`VMX_ENABLED` and `NO_ASYNC` is refused (R71, R72). -/

namespace Sys2Proof.Machine

/-- Settles O24: every instruction answers the next state of the common operation, so it answers no stop. -/
theorem noInstructionTraps : Obligations.NoInstructionTraps := by
  intro i s
  rw [exec_eq_vcmpge]
  exact ⟨⟨_, rfl⟩, nofun, nofun⟩

/-- Without `VMX_ENABLED` a step is refused before any fetch. -/
theorem step_of_not_vmxEnabled {s : State} (hv : s.premises.vmxEnabled = false) :
    step s = .refused .vectorUnitUnavailable :=
  if_pos hv

/-- With `VMX_ENABLED` and without `NO_ASYNC` a step is refused before any fetch. -/
theorem step_of_not_noAsync {s : State} (hv : s.premises.vmxEnabled = true) (hn : s.premises.noAsync = false) :
    step s = .refused .asyncEvent := by
  rw [step, if_neg (by simp [hv]), if_pos hn]

/-- Settles O39: the first step is refused, and a refusal stands for the whole run. -/
theorem runOutsideThePremisesIsRefused : Obligations.RunOutsideThePremisesIsRefused := fun _ n =>
  ⟨fun hv => run_succ_of_refused (step_of_not_vmxEnabled hv) n,
    fun hv hn => run_succ_of_refused (step_of_not_noAsync hv hn) n⟩

end Sys2Proof.Machine
end

section
/-! PROOFS. The statements of spec/70_reset_and_hazards.md: the launch (R80, R81), a result read by the next
instruction (R82), one step (R84), a word placed for the next step, and where a program's run ends (R85). -/

namespace Sys2Proof.Machine

/-! ### The run of a launched program (R85) -/

/-- Over a run the constants stay. -/
theorem run_constants {n : Nat} {s t : State} (h : run n s = .next t) : t.constants = s.constants :=
  (State.constants_eq_iff s t).mpr (runKeepsVscrAndProgram n s t h)

/-- The program's end is computed from constants of the run. -/
theorem State.textEnd_of_constants {s t : State} (h : t.constants = s.constants) : t.textEnd = s.textEnd := by
  obtain ⟨-, -, htext, -, -⟩ := (State.constants_eq_iff s t).mp h
  rw [State.textEnd, htext]
  exact State.textAddr_of_constants h _

/-- The premises hold on where the constants stay. -/
theorem PremisesHold.of_constants {s t : State} (h : t.constants = s.constants) (hs : PremisesHold s) :
    PremisesHold t := by
  obtain ⟨-, -, -, -, hpremises⟩ := (State.constants_eq_iff s t).mp h
  exact ⟨hpremises ▸ hs.vmxEnabled, hpremises ▸ hs.noAsync⟩

/-- The program stays the same list of words where the constants stay. -/
theorem ProgramIs.of_constants {s t : State} {words : List Word} (h : t.constants = s.constants)
    (hs : ProgramIs s words) : ProgramIs t words := by
  obtain ⟨-, hmem, htext, -, -⟩ := (State.constants_eq_iff s t).mp h
  refine ⟨htext ▸ hs.len, fun k hk => ?_⟩
  rw [hmem, State.textAddr_of_constants h]
  exact hs.word k hk

section
variable {s t : State} {words : List Word} {k : Nat}

/-- A step that runs an instruction at a program word goes on to the next address. -/
theorem step_next_textAddr {w : Word} {i : Instr} (hpremises : PremisesHold s) (hfetch : s.fetch = .ok w)
    (hdecode : decodeWord s.params.rcBit w = .instr i) (hpc : s.pc = s.textAddr k) :
    ∃ t, step s = .next t ∧ t.pc = s.textAddr (k + 1) := by
  refine ⟨_, (step_of_instr hpremises hfetch hdecode).trans (exec_eq_vcmpge i s), ?_⟩
  rw [vcmpge_pc, hpc, State.textAddr_succ]

variable (hinv : Inv s) (hpremises : PremisesHold s) (hprog : ProgramIs s words)
  (hfits : 4 * words.length < 2 ^ s.params.pcWidth)
include hinv hprog hfits

/-- A state of the run that stands at the address of word `k` fetches that word. -/
theorem fetch_programWord (hconst : t.constants = s.constants) (hk : k < words.length)
    (hpc : t.pc = s.textAddr k) : t.fetch = .ok words[k] := by
  obtain ⟨-, -, htext, hparams, -⟩ := (State.constants_eq_iff s t).mp hconst
  rw [← hparams] at hfits
  rw [← State.textAddr_of_constants hconst] at hpc
  exact (fetchReturnsTheProgramsWords t words k hk (hparams ▸ hinv.width) (htext ▸ hinv.baseAligned)
    (hprog.of_constants hconst) hpc hfits.le).1 (.inr hfits)

include hpremises

/-- `k` words in scope at the front of the program take the run to the address of word `k`: each step runs
the word it stands at and goes on to the next. -/
theorem run_inScopeWords (hk : k ≤ words.length) (hscope : AllInScope s (words.take k))
    (hpc : s.pc = s.textAddr 0) : ∃ t, run k s = .next t ∧ t.pc = s.textAddr k := by
  induction k with
  | zero => exact ⟨s, run_zero s, hpc⟩
  | succ k ih =>
    obtain ⟨t, hrun, htpc⟩ := ih (by omega) fun w hw =>
      hscope w (List.take_subset_take_left words (Nat.le_succ k) hw)
    have hconst := run_constants hrun
    have hfetch := fetch_programWord hinv hprog hfits hconst hk htpc
    obtain ⟨i, hi⟩ := hscope words[k] (List.mem_take_iff_getElem.mpr ⟨k, by omega, rfl⟩)
    obtain ⟨-, -, -, hparams, -⟩ := (State.constants_eq_iff s t).mp hconst
    rw [← hparams] at hi
    obtain ⟨u, hstep, hupc⟩ := step_next_textAddr (hpremises.of_constants hconst) hfetch hi
      (htpc.trans (State.textAddr_of_constants hconst k).symm)
    refine ⟨u, ?_, hupc.trans (State.textAddr_of_constants hconst (k + 1))⟩
    rw [run_add hrun, run_succ_of_next hstep, run_zero]

end

/-- Settles O49: every word is in scope, so the run stands at the address of word `k` after `k` steps, and
that address is the end only for `k` the length. -/
theorem programEndsAfterItsLength : Obligations.ProgramEndsAfterItsLength := by
  intro s words hinv hpremises hprog hscope hfits hpc
  have hlen := hprog.len
  have hreach {k : Nat} (hk : k ≤ words.length) : ∃ t, run k s = .next t ∧ t.pc = s.textAddr k :=
    run_inScopeWords hinv hpremises hprog hfits hk (fun w hw => hscope w (List.mem_of_mem_take hw)) hpc
  refine ⟨?_, fun k hk => ?_⟩
  · obtain ⟨t, hrun, htpc⟩ := hreach le_rfl
    have hconst := run_constants hrun
    have haligned : t.pc % 4 = 0 := htpc ▸ s.textAddr_mod_four hinv.width hinv.baseAligned _
    have hend : t.pc = s.textEnd := by rw [htpc, State.textEnd, hlen]
    have hfetch := State.fetch_end haligned (hend.trans (State.textEnd_of_constants hconst).symm)
    exact ⟨t, hrun, hend, hend ▸ step_of_fetch_error (hpremises.of_constants hconst) hfetch⟩
  · obtain ⟨t, hrun, htpc⟩ := hreach hk.le
    exact ⟨t, hrun, htpc, htpc ▸ s.textAddr_ne_of_lt (by omega) (by omega)⟩

/-- Settles O50: the words before it take the run to the out-of-scope word, where the step is refused. -/
theorem programStopsAtItsFirstOutOfScopeWord : Obligations.ProgramStopsAtItsFirstOutOfScopeWord := by
  intro s words k hk hinv hpremises hprog hscope hdecode hfits hpc n
  obtain ⟨t, hrun, htpc⟩ := run_inScopeWords hinv hpremises hprog hfits hk.le hscope hpc
  have hconst := run_constants hrun
  obtain ⟨-, -, -, hparams, -⟩ := (State.constants_eq_iff s t).mp hconst
  rw [← hparams] at hdecode
  have hstep := step_of_notInScope (hpremises.of_constants hconst)
    (fetch_programWord hinv hprog hfits hconst hk htpc) hdecode
  rw [add_assoc, add_comm 1 n, run_add hrun, run_succ_of_refused hstep, htpc]

/-! ### The launch (R80, R81) -/

section
variable {n a b : Nat} (hn : 4 ∣ n)
include hn

/-- An aligned address stays aligned modulo a multiple of 4. -/
theorem mod_mod_four_eq_zero (ha : a % 4 = 0) : a % n % 4 = 0 := by
  rw [Nat.mod_mod_of_dvd a hn, ha]

/-- Loading words leaves the words at other aligned addresses as they were. -/
theorem Memory.readWord_loadWords_of_ne (m : Memory) (ws : List Word) (ha : a % 4 = 0) (hb : b % 4 = 0)
    (hne : ∀ k < ws.length, b ≠ (a + 4 * k) % n) :
    Memory.readWord (Memory.loadWords n m a ws) b = Memory.readWord m b := by
  induction ws generalizing m a with
  | nil => rfl
  | cons w ws ih =>
    have hfirst : b ≠ a % n := hne 0 (by simp)
    have hrest : ∀ k < ws.length, b ≠ (a + 4 + 4 * k) % n := fun k hk => by
      rw [show a + 4 + 4 * k = a + 4 * (k + 1) by omega]
      exact hne (k + 1) (by simpa using hk)
    exact (ih _ (by omega) hrest).trans
      (Memory.readWord_writeWord_of_aligned_ne m w (mod_mod_four_eq_zero hn ha) hb hfirst)

/-- Words that fit below the modulus are read back from where they were loaded: none is stored over an
earlier one. -/
theorem Memory.readWord_loadWords (m : Memory) (ws : List Word) (ha : a % 4 = 0) (hfits : 4 * ws.length ≤ n)
    {k : Nat} (hk : k < ws.length) :
    Memory.readWord (Memory.loadWords n m a ws) ((a + 4 * k) % n) = some ws[k] := by
  induction ws generalizing m a k with
  | nil => exact absurd hk (Nat.not_lt_zero k)
  | cons w ws ih =>
    rw [List.length_cons] at hfits hk
    cases k with
    | zero =>
      have hother : ∀ j < ws.length, a % n ≠ (a + 4 + 4 * j) % n := fun j hj heq => by
        have hzero := Nat.sub_mod_eq_zero_of_mod_eq heq.symm
        rw [show a + 4 + 4 * j - a = 4 * (j + 1) by omega, Nat.mod_eq_of_lt (by omega)] at hzero
        omega
      exact (Memory.readWord_loadWords_of_ne hn _ ws (by omega) (mod_mod_four_eq_zero hn ha) hother).trans
        (Memory.readWord_writeWord_same m (a % n) w)
    | succ k =>
      rw [show a + 4 * (k + 1) = a + 4 + 4 * k by omega]
      exact ih (a := a + 4) _ (by omega) (by omega) (by omega)

end

section
variable {p : Params} (vr : Vector Vec 128) (cr6 : Cr6) (vscr : Vscr) {base : Nat} {words : List Word}
  (hwidth : p.wf = true) (hbase : base % 4 = 0) (hfits : 4 * words.length ≤ 2 ^ p.pcWidth)
include hwidth hbase hfits

/-- A launch has its program loaded. -/
theorem State.launch_programIs : ProgramIs (State.launch p vr cr6 vscr base words) words where
  len := rfl
  word _ hk := Memory.readWord_loadWords (four_dvd_two_pow ((Params.wf_iff p).mp hwidth)) [] words hbase hfits hk

/-- A launch meets the invariant: `pc` is the address of word 0, or of the empty program's end. -/
theorem State.launch_inv : Inv (State.launch p vr cr6 vscr base words) where
  width := hwidth
  baseAligned := hbase
  memWf := Memory.loadWords_wf _ _ _ Memory.wf_nil
  loaded k hk := ⟨_, (State.launch_programIs vr cr6 vscr hwidth hbase hfits).word k hk⟩
  pcBound := Nat.mod_lt _ (Nat.two_pow_pos _)
  pcAligned := mod_mod_four_eq_zero (four_dvd_two_pow ((Params.wf_iff p).mp hwidth)) hbase
  pcPlace := (State.launch p vr cr6 vscr base words).textAddr_place (Nat.zero_le _)

end

/-- Settles O45: the program is read back from where it was loaded; the other fields are those given. -/
theorem launchMeetsThePremises : Obligations.LaunchMeetsThePremises :=
  fun _ vr cr6 vscr _ _ hwidth hbase hfits =>
    ⟨State.launch_inv vr cr6 vscr hwidth hbase hfits, ⟨rfl, rfl⟩,
      State.launch_programIs vr cr6 vscr hwidth hbase hfits, rfl, rfl, rfl, rfl, rfl⟩

/-! ### One step (R84) -/

/-- A word is an instruction, or out of scope under its own name. -/
theorem decodeWord_instr_or_notInScope (rc : RcBit) (w : Word) :
    (∃ i, decodeWord rc w = .instr i) ∨ decodeWord rc w = .notInScope w := by
  obtain ⟨-, -, h⟩ | ⟨-, -, h⟩ | ⟨-, -, h⟩ | ⟨-, -, h⟩ | ⟨-, -, h⟩ := decodeWord_cases rc w
  · exact .inl ⟨_, h⟩
  · exact .inl ⟨_, h⟩
  · exact .inl ⟨_, h⟩
  · exact .inl ⟨_, h⟩
  · exact .inr h

/-- Settles O37: the four bytes at `pc` are the fetched word, and `exec` answers a next state. -/
theorem stepRunsTheDecodedInstruction : Obligations.StepRunsTheDecodedInstruction := by
  intro s b0 b1 b2 b3 i hpremises haligned hnotEnd hin h0 h1 h2 h3 hdecode
  have hword : Memory.readWord s.mem s.pc = some (wordOfBytes b0 b1 b2 b3) :=
    (Memory.readWord_eq_some_iff ..).mpr ⟨b0, b1, b2, b3, h0, h1, h2, h3, rfl⟩
  have hinstr : decodeWord s.params.rcBit (wordOfBytes b0 b1 b2 b3) = .instr i := by
    simpa [decodeBytes] using hdecode
  have hstep := step_of_instr hpremises (State.fetch_loaded haligned hnotEnd hin hword) hinstr
  exact ⟨hstep, _, hstep.trans (exec_eq_vcmpge i s)⟩

/-- Settles O38: each clause is one answer of fetch, and the step's answer to it. -/
theorem stepOutcomes : Obligations.StepOutcomes := by
  refine fun s hpremises => ⟨fun hmisaligned => ?_, fun haligned hend => ?_, fun haligned hnotEnd hout => ?_,
    fun k w haligned hnotEnd hk hpc hword => ?_⟩
  · exact step_of_fetch_error hpremises (State.fetch_misaligned hmisaligned)
  · exact step_of_fetch_error hpremises (State.fetch_end haligned hend)
  · have hnotIn : s.inText s.pc = false := by
      rw [← Bool.not_eq_true, State.inText_iff]
      rintro ⟨k, hk, hpc⟩
      exact hout k hk hpc
    exact step_of_fetch_error hpremises (State.fetch_outside haligned hnotEnd hnotIn)
  · have hfetch := State.fetch_loaded haligned hnotEnd ((s.inText_iff _).mpr ⟨k, hk, hpc⟩) hword
    exact ⟨fun i => step_of_instr hpremises hfetch, step_of_notInScope hpremises hfetch⟩

/-- Settles O47: away from the end the invariant's `pc` is a loaded word's, which is run or refused. -/
theorem noStepIsStuckUnderTheInvariant : Obligations.NoStepIsStuckUnderTheInvariant := by
  intro s hinv hpremises
  by_cases hend : s.pc = s.textEnd
  · exact .inr (.inl ⟨hend, step_of_fetch_error hpremises (State.fetch_end hinv.pcAligned hend)⟩)
  have hin : s.inText s.pc = true := hinv.pcPlace.resolve_right hend
  obtain ⟨k, hk, hpc⟩ := (s.inText_iff s.pc).mp hin
  obtain ⟨w, hword⟩ := hinv.loaded k hk
  rw [← hpc] at hword
  have hfetch := State.fetch_loaded hinv.pcAligned hend hin hword
  rcases decodeWord_instr_or_notInScope s.params.rcBit w with ⟨i, hinstr⟩ | hout
  · exact .inl ⟨_, (step_of_instr hpremises hfetch hinstr).trans (exec_eq_vcmpge i s)⟩
  · exact .inr (.inr ⟨w, hword, step_of_notInScope hpremises hfetch hout⟩)

/-! ### A word placed for the next step (this model's operation, log entry 5) -/

section
variable (s : State) (w : Word)

@[simp] theorem State.placeWord_params : (s.placeWord w).params = s.params := by
  unfold State.placeWord; split <;> rfl
@[simp] theorem State.placeWord_premises : (s.placeWord w).premises = s.premises := by
  unfold State.placeWord; split <;> rfl
@[simp] theorem State.placeWord_pc : (s.placeWord w).pc = s.pc := by unfold State.placeWord; split <;> rfl
@[simp] theorem State.placeWord_vr : (s.placeWord w).vr = s.vr := by unfold State.placeWord; split <;> rfl
@[simp] theorem State.placeWord_cr6 : (s.placeWord w).cr6 = s.cr6 := by unfold State.placeWord; split <;> rfl
@[simp] theorem State.placeWord_vscr : (s.placeWord w).vscr = s.vscr := by unfold State.placeWord; split <;> rfl
@[simp] theorem State.placeWord_mem : (s.placeWord w).mem = Memory.writeWord s.mem s.pc w := by
  unfold State.placeWord; split <;> rfl

end

section
variable {s : State} (hwidth : s.params.wf = true) (hbound : s.pc < 2 ^ s.params.pcWidth)
include hwidth hbound

/-- Of a program of one word at `pc`, `pc` is an address and not the end, which is four bytes on. -/
theorem State.pc_place_of_oneWordText (htext : s.text = { base := s.pc, len := 1 }) :
    s.inText s.pc = true ∧ s.pc ≠ s.textEnd := by
  have hpc : s.textAddr 0 = s.pc := by
    rw [State.textAddr, htext]
    exact Nat.mod_eq_of_lt hbound
  have hmodulus : 2 ^ 3 ≤ 2 ^ s.params.pcWidth := Nat.pow_le_pow_right (by decide) ((Params.wf_iff _).mp hwidth)
  have hne : s.textAddr 0 ≠ s.textAddr 1 := s.textAddr_ne_of_lt Nat.one_pos (by omega)
  rw [State.textEnd, htext, ← hpc]
  exact ⟨s.inText_textAddr (by simp [htext]), hne⟩

variable (w : Word)

/-- After the placing, `pc` is in the program and not at its end. -/
theorem State.placeWord_place : (s.placeWord w).inText s.pc = true ∧ s.pc ≠ (s.placeWord w).textEnd := by
  unfold State.placeWord
  split
  · next hplace => exact hplace
  · exact State.pc_place_of_oneWordText hwidth hbound rfl

/-- The next fetch answers the placed word. -/
theorem State.fetch_placeWord (haligned : s.pc % 4 = 0) : (s.placeWord w).fetch = .ok w := by
  obtain ⟨hin, hnotEnd⟩ := State.placeWord_place hwidth hbound w
  rw [State.fetch_eq_ok_iff]
  simp [haligned, hin, hnotEnd]

end

/-- Settles O43: the placed word is the one fetched, and the placing writes its four bytes and no register. -/
theorem placedWordIsRunNext : Obligations.PlacedWordIsRunNext := by
  intro s nbits w hpremises hwidth haligned hbound
  have hfetch := State.fetch_placeWord hwidth hbound (tableWord nbits w) haligned
  have hplaced : PremisesHold (s.placeWord (tableWord nbits w)) :=
    ⟨by simpa using hpremises.vmxEnabled, by simpa using hpremises.noAsync⟩
  rw [State.withFetchWord]
  refine ⟨fun i hinstr => ?_, fun hout => ?_, s.placeWord_pc _, s.placeWord_vr _, s.placeWord_cr6 _,
    s.placeWord_vscr _, fun a ha => ?_⟩
  · exact step_of_instr hplaced hfetch (by rwa [State.placeWord_params])
  · exact (step_of_notInScope hplaced hfetch (by rwa [State.placeWord_params])).trans (by rw [State.placeWord_pc])
  · rw [State.placeWord_mem]
    exact Memory.read_writeWord_of_ne _ _ _ ha

/-! ### A result read by the next instruction (R82) -/

section
variable (vd va vb : VReg) (s : State)

/-- Every lane of a result is a mask (R53). -/
theorem lane_vcmpge_dest_cases (rc : Bool) (k : Fin 4) : lane ((vcmpge rc vd va vb s).readVr vd) k = maskTrue ∨
    lane ((vcmpge rc vd va vb s).readVr vd) k = maskFalse := by
  rw [vcmpge_lane_dest]
  exact laneMask_cases ..

/-- A result compared with itself by the record form is complemented (R60 item 7). -/
theorem vcmpge_result_with_itself (rc : Bool) (vc : VReg) :
    (vcmpge true vc vd vd (vcmpge rc vd va vb s)).readVr vc = ~~~ (vcmpge rc vd va vb s).readVr vd := by
  obtain ⟨u, hu, hnot⟩ := maskInversion (.vcmpgefpRc vc vd vd) _ rfl (lane_vcmpge_dest_cases vd va vb s rc)
  obtain rfl := (exec_eq_next_iff ..).mp hu
  exact hnot

/-- `CR6.lt` after a record form is set exactly when the result is all ones (R54). -/
theorem cr6Lt_vcmpge_iff_allOnes : cr6Lt (vcmpge true vd va vb s).cr6 = true ↔
    (vcmpge true vd va vb s).readVr vd = BitVec.allOnes 128 :=
  (cr6Lt_vcmpge ..).trans (forall_lane_eq_iff _ maskTrue)

/-- `CR6.eq` after a record form is set exactly when the result is zero (R54). -/
theorem cr6Eq_vcmpge_iff_zero : cr6Eq (vcmpge true vd va vb s).cr6 = true ↔
    (vcmpge true vd va vb s).readVr vd = 0#128 :=
  (cr6Eq_vcmpge ..).trans (forall_lane_eq_iff _ maskFalse)

/-- `CR6.gt` is clear after a record form (R54). -/
theorem cr6Gt_vcmpge : cr6Gt (vcmpge true vd va vb s).cr6 = false := by
  rw [vcmpge_cr6, if_pos rfl, cr6Gt_cr6FromMask]

/-- `CR6.so` is clear after a record form (R54). -/
theorem cr6So_vcmpge : cr6So (vcmpge true vd va vb s).cr6 = false := by
  rw [vcmpge_cr6, if_pos rfl, cr6So_cr6FromMask]

end

/-- Settles O36: the record form reads masks and writes their complement, and the complement is all ones where
the result is zero. -/
theorem resultVisibleToNextInstruction : Obligations.ResultVisibleToNextInstruction := by
  intro vd va vb vc s
  have hnot := vcmpge_result_with_itself vd va vb s false vc
  refine ⟨vcmpge false vd va vb s, _, exec_eq_vcmpge .., exec_eq_vcmpge .., hnot,
    (cr6Lt_vcmpge_iff_allOnes vc vd vd _).trans ?_, (cr6Eq_vcmpge_iff_zero vc vd vd _).trans ?_, cr6Gt_vcmpge ..,
    cr6So_vcmpge ..⟩
  · rw [hnot, ← BitVec.not_zero, BitVec.not_inj]
  · rw [hnot, ← BitVec.not_allOnes, BitVec.not_inj]

end Sys2Proof.Machine
end

section
/-! PROOFS. The statement about sample words of spec/95_test_vectors.md V1 to V3. -/

namespace Sys2Proof

/-- Settles O1: each accepted word is the encoding of the instruction beside it, and each refused word misses both
patterns, at `OPCD` or at the extended opcode. -/
theorem sampleWordsDecode : Obligations.SampleWordsDecode := by
  refine ⟨?vcmpgefp, ?vcmpgefpRc, ?vcmpgefp128, ?vcmpgefp128Rc, ?vcmpgefp128RcBit25, ?wrongXo, ?wrongOpcd⟩
  case vcmpgefp | vcmpgefpRc | vcmpgefp128 | vcmpgefp128Rc | vcmpgefp128RcBit25 =>
    exact (decodeWord_eq_instr_iff ..).mpr (by decide)
  case wrongXo | wrongOpcd => exact decodeWord_of_neither .bit27 (by decide) (by decide)

end Sys2Proof
end
